-- ==== Sys2Proof/Word.lean ====
section
/-! DEFINITION. The cell: the one data type of the IntCode block (00_scope.md R6, 20_memory.md R51). -/

namespace Sys2Proof

/-- The value of one memory cell, and of every data value: the integer that CELL_W two's-complement bits stand for (R51).
CELL_W is a parameter (`Config.cellW`), and no instruction reads, shifts or combines bits of a cell (R8, R57), so the
value is held as the integer; that it is in the range of CELL_W bits is `fitsW` (R7), an invariant (log 1). -/
abbrev Cell := Int

end Sys2Proof
end

