-- ==== Sys2Proof/Config.lean ====
section
/-! DEFINITION. The implementation parameters of 00_scope.md R6 and the range of a cell (R7). A machine is built with one
value of them and keeps it (log 2). There is no free value: the spec leaves no result open (R113, R205). -/

namespace Sys2Proof

/-- OVERFLOW_POLICY (R6, R108): what ADD, MUL and ARB do when the exact result does not fit in a cell. -/
inductive OverflowPolicy where
  | fault
  | wrap
deriving DecidableEq, Repr

/-- The parameters of R6. PHASES is an argument of network construction. -/
structure Config where
  /-- CELL_W, the width in bits of one memory cell and of every data value -/
  cellW : Nat
  /-- OVERFLOW_POLICY -/
  overflowPolicy : OverflowPolicy
  /-- MEM_CAPACITY, the number of cells of each Processor's memory -/
  memCapacity : Nat
  /-- N, the number of Processors in the ring -/
  ringSize : Nat
  /-- SEED, the value carried into Processor 0 at the start of a network run -/
  seed : Cell
  /-- QUEUE_DEPTH, the capacity of each queue; `none` is unbounded -/
  queueDepth : Option Nat
deriving DecidableEq, Repr

/-- The values for this hardware (R6, column "value for this hardware"). -/
def Config.hardware : Config where
  cellW := 64
  overflowPolicy := .fault
  memCapacity := 1000000
  ringSize := 5
  seed := 0
  queueDepth := none

/-- The least value of a cell, -2^(CELL_W-1) (R7). -/
abbrev Config.cellMin (c : Config) : Int := -((2 ^ (c.cellW - 1) : Nat) : Int)

/-- The greatest value of a cell, 2^(CELL_W-1) - 1 (R7). -/
abbrev Config.cellMax (c : Config) : Int := ((2 ^ (c.cellW - 1) : Nat) : Int) - 1

/-- The constraints R6 puts on the parameters, and SEED is a value of a cell (R30 b). -/
abbrev Config.Valid (c : Config) : Prop :=
  8 ≤ c.cellW ∧ 1 ≤ c.memCapacity ∧ (c.memCapacity : Int) ≤ c.cellMax ∧ 1 ≤ c.ringSize ∧
    c.cellMin ≤ c.seed ∧ c.seed ≤ c.cellMax

end Sys2Proof
end

