-- ==== Sys2Proof/Syntax.lean ====
section
/-! DEFINITION. The instruction set, whole: one constructor per row of spec/opcode_table.json (30_encoding.md R78). -/

namespace Sys2Proof

/-- The parameter modes (R80). -/
inductive Mode where
  | position
  | immediate
  | relative
deriving DecidableEq, Repr

/-- One parameter: its mode and its raw parameter cell (R75, R84). -/
structure Operand where
  mode : Mode
  raw : Cell
deriving DecidableEq, Repr

/-- The ten instructions (R78), parameters in order: reads first, the write target last. -/
inductive Instr where
  /-- ADD, opcode 1: `dst = a + b` (R125) -/
  | add (a b dst : Operand)
  /-- MUL, opcode 2: `dst = a * b` (R126) -/
  | mul (a b dst : Operand)
  /-- IN, opcode 3: `dst = pop InQ` (R135) -/
  | inp (dst : Operand)
  /-- OUT, opcode 4: push `v` (R136) -/
  | out (v : Operand)
  /-- JT, opcode 5: jump to `target` if `cond` is not 0 (R145) -/
  | jt (cond target : Operand)
  /-- JF, opcode 6: jump to `target` if `cond` is 0 (R146) -/
  | jf (cond target : Operand)
  /-- LT, opcode 7: `dst = 1 if a < b else 0` (R127) -/
  | lt (a b dst : Operand)
  /-- EQ, opcode 8: `dst = 1 if a = b else 0` (R128) -/
  | eq (a b dst : Operand)
  /-- ARB, opcode 9: `rb += v` (R155) -/
  | arb (v : Operand)
  /-- HLT, opcode 99 (R147) -/
  | hlt
deriving DecidableEq, Repr

/-- The parameters of an instruction, in order. -/
def Instr.operands : Instr → List Operand
  | .add a b d | .mul a b d | .lt a b d | .eq a b d => [a, b, d]
  | .jt c t | .jf c t => [c, t]
  | .inp d => [d]
  | .out v | .arb v => [v]
  | .hlt => []

/-- The number of cells an instruction occupies, `1 + n` (R75, R89). -/
def Instr.length (i : Instr) : Nat := 1 + i.operands.length

/-- The write parameter, with its 1-based index `wparam` (R100): 3 for ADD, MUL, LT and EQ, 1 for IN. -/
def Instr.writeParam : Instr → Option (Nat × Operand)
  | .add _ _ d | .mul _ _ d | .lt _ _ d | .eq _ _ d => some (3, d)
  | .inp d => some (1, d)
  | .out _ | .arb _ | .jt _ _ | .jf _ _ | .hlt => none

end Sys2Proof
end

