-- ==== Sys2Proof/Machine/State.lean ====
section
/-! DEFINITION. All the state the spec gives the IntCode block, as plain data (10_state.md R20 to R34), its reset, and
the reasons a step can stop. -/

namespace Sys2Proof.Machine

/-- M (R29, R50): (address, cell) pairs. An address that is not listed reads 0 (R54). The pair holds a whole cell and
not a byte, since the cell is the smallest and only unit of access (R51, R57; log 3). -/
abbrev Memory := List (Nat × Cell)

/-- The canonical form: addresses strictly rising, no entry equal to what an unlisted address reads as. -/
abbrev Memory.wf (m : Memory) : Prop := m.Pairwise (fun c d => c.1 < d.1) ∧ ∀ c ∈ m, c.2 ≠ 0

/-- The run-state register (R23). -/
inductive Status where
  | running
  | blocked
  | halted
  | faulted
deriving DecidableEq, Repr

/-- The fault codes (60_exceptions.md R160). -/
inductive FaultCode where
  | invalidOpcode
  | invalidParameterMode
  | invalidWriteTarget
  | memoryFault
  | arithmeticOverflow
  | queueOverflow
  | imageError
  | noOutput
deriving DecidableEq, Repr

/-- The fault record (R25). `ip` is absent only in a record the scheduler makes without a faulting step (log 8). -/
structure FaultRecord where
  code : FaultCode
  ip : Option Nat
  word : Option Cell
  param : Nat
  detail : Option Int
deriving DecidableEq, Repr

/-- One Processor: all the state of R21 to R29, summarised in R34. The range of ip is an invariant (log 19). -/
structure Processor where
  ip : Nat
  rb : Cell
  status : Status
  fault : Option FaultRecord
  lastOutput : Option Cell
  inQ : List Cell
  outQ : List Cell
  mem : Memory
deriving DecidableEq, Repr

/-- What a step reports to its caller (40_pipeline.md R111). -/
inductive StepOutcome where
  /-- an instruction completed; `out` is the value OUT pushed, or none -/
  | progress (out : Option Cell)
  /-- IN found InQ empty -/
  | starved
  /-- status was Halted or Faulted at the gate -/
  | idle
  /-- a fault was raised -/
  | fault (rec : FaultRecord)
deriving DecidableEq, Repr

/-- The network run state (R30 e). -/
inductive NStatus where
  | running
  | done
  | deadlocked
  | faulted
deriving DecidableEq, Repr

/-- The carry register, a pair (valid, value) (R30 b). -/
structure Carry where
  valid : Bool
  value : Cell
deriving DecidableEq, Repr

/-- The scheduler's registers other than the Processors and the cursor (R30 b, d to g). -/
structure Ring where
  carry : Carry
  passProgress : Bool
  nstatus : NStatus
  nfault : Option (Nat × FaultRecord)
  result : Option Cell
deriving DecidableEq, Repr

/-- The whole block. `ring` is absent when one Processor is used on its own (42_io.md R138) and present in a network
(R176). `cursor` names the Processor whose step is next (R30 c); it stays 0 in single-Processor mode (log 4). `outcome`
is the pipeline's output port of the latest step (R117; log 6). `cfg` never changes (log 2). -/
structure State where
  cfg : Config
  procs : List Processor
  cursor : Nat
  ring : Option Ring
  outcome : Option StepOutcome
deriving DecidableEq, Repr

/-- Why there is no next state. No instruction of the table raises one on a constructed machine: a fault of the spec is
a next state with status Faulted (R161; log 7). -/
inductive Fault where
  /-- A slot asked for after NDone: a slot is "allowed only while nstatus = NRunning" (R178). Raised by `step`. Safe. -/
  | networkDone
  /-- A slot asked for in NDeadlocked, which "takes no further step" (R180). Raised by `step`. Safe. -/
  | networkDeadlocked
  /-- A slot asked for in NFaulted: "No further slot runs" (R181). Raised by `step`. Safe. -/
  | networkFaulted
  /-- The cursor names no Processor. No constructed machine is in such a state (R30 c). Raised by `step` and by every
  instruction. Safe. -/
  | noProcessor
deriving DecidableEq, Repr

/-- No meaning for an instruction. -/
inductive Refusal where
  /-- An instruction that the dispatch rejects by name. No arm does. Safe. -/
  | notModelled (mnemonic : String)
deriving DecidableEq, Repr

/-- The machine after construction in single-Processor mode with the parameters of this hardware, the empty image and
no pre-seeded input: every field as R201 says for these arguments (log 5). -/
def State.reset : State where
  cfg := Config.hardware
  procs := [{ ip := 0, rb := 0, status := .running, fault := none, lastOutput := none, inQ := [], outQ := [], mem := [] }]
  cursor := 0
  ring := none
  outcome := none

end Sys2Proof.Machine
end

