-- ==== Sys2Proof/Machine/Ops.lean ====
section
/-! DEFINITION. The named operations over memory, queues and the state, and taking a fault (20_memory.md R50 to R54,
10_state.md R27, 40_pipeline.md R110, 60_exceptions.md R161). There is no return from a fault: Faulted is terminal and
the ISA has no such instruction (R171). -/

namespace Sys2Proof.Machine

/-! ## Encodings of the named values -/

/-- The 2-bit encoding of status (R23). -/
def Status.encoding : Status → BitVec 2
  | .running => 0
  | .blocked => 1
  | .halted => 2
  | .faulted => 3

/-- The source's halted flag: `status = Halted` (R23). -/
def Processor.haltedFlag (p : Processor) : Bool := p.status == .halted

/-- The numeric fault codes (R160); 0 means "no fault". -/
def FaultCode.number : FaultCode → Nat
  | .invalidOpcode => 1
  | .invalidParameterMode => 2
  | .invalidWriteTarget => 3
  | .memoryFault => 4
  | .arithmeticOverflow => 5
  | .queueOverflow => 6
  | .imageError => 7
  | .noOutput => 8

/-! ## Memory -/

/-- M[a] of a legal address: an unlisted cell reads 0 (R52, R54). -/
def Memory.read : Memory → Nat → Cell
  | [], _ => 0
  | (b, u) :: m, a => if a = b then u else Memory.read m a

/-- M[a] <- v, keeping the canonical form: storing 0 removes the entry. -/
def Memory.write : Memory → Nat → Cell → Memory
  | [], a, v => if v = 0 then [] else [(a, v)]
  | (b, u) :: m, a, v =>
    if a < b then (if v = 0 then (b, u) :: m else (a, v) :: (b, u) :: m)
    else if a = b then (if v = 0 then m else (a, v) :: m)
    else (b, u) :: Memory.write m a v

/-- The memory whose cells from `a` on are an image's, every other cell 0 (R54). -/
def Memory.loadAt : Nat → List Cell → Memory
  | _, [] => []
  | a, v :: vs => if v = 0 then Memory.loadAt (a + 1) vs else (a, v) :: Memory.loadAt (a + 1) vs

/-- `load(image)`, the image at addresses 0 .. L-1 (R54, R60). -/
def Memory.load (image : List Cell) : Memory := Memory.loadAt 0 image

/-- What a step raises before the record is complete: code, parameter index, detail (R9, R160). -/
structure Raise where
  code : FaultCode
  param : Nat
  detail : Option Int
deriving DecidableEq, Repr

/-- An address is an exact integer, legal when `0 <= a < MEM_CAPACITY` (R50). -/
abbrev legalAddr (cfg : Config) (a : Int) : Prop := 0 ≤ a ∧ a < cfg.memCapacity

/-- `MemRead(a, 1)`, on behalf of parameter `param`, 0 for the instruction fetch (R52, R165). -/
def memRead (cfg : Config) (m : Memory) (param : Nat) (a : Int) : Except Raise Cell :=
  if legalAddr cfg a then .ok (Memory.read m a.toNat) else .error ⟨.memoryFault, param, some a⟩

/-- `MemWrite(a, 1, v)`, on behalf of parameter `param` (R53). -/
def memWrite (cfg : Config) (m : Memory) (param : Nat) (a : Int) (v : Cell) : Except Raise Memory :=
  if legalAddr cfg a then .ok (Memory.write m a.toNat v) else .error ⟨.memoryFault, param, some a⟩

/-! ## Queues -/

/-- A queue at QUEUE_DEPTH; never, where the depth is unbounded (R27, R167). -/
def queueFull (cfg : Config) (q : List Cell) : Bool :=
  match cfg.queueDepth with
  | none => false
  | some d => d ≤ q.length

/-- `push(v)` appends at the tail; onto a full queue it is QueueOverflow (R27, R167). -/
def pushQueue (cfg : Config) (q : List Cell) (v : Cell) : Except Raise (List Cell) :=
  if queueFull cfg q then .error ⟨.queueOverflow, 0, none⟩ else .ok (q ++ [v])

/-- `inject_input(v)`: push onto InQ, and Blocked becomes Running; no other status changes (R186). -/
def Processor.inject (cfg : Config) (p : Processor) (v : Cell) : Except Raise Processor :=
  match pushQueue cfg p.inQ v with
  | .error r => .error r
  | .ok q => .ok { p with inQ := q, status := if p.status = .blocked then .running else p.status }

/-! ## The Processor at the cursor, commit, and taking a fault -/

/-- The Processor whose step is next (R30 c, R177). -/
def State.current (s : State) : Option Processor := s.procs[s.cursor]?

/-- Put a Processor at the cursor. -/
def State.setCurrent (s : State) (p : Processor) : State := { s with procs := s.procs.set s.cursor p }

/-- COMMIT: every staged effect of a step is applied at once, and its outcome reported (R110, R111). -/
def State.commit (s : State) (p : Processor) (o : StepOutcome) : State :=
  { s.setCurrent p with outcome := some o }

/-- The instruction word fetched at ip, or none if that fetch itself faults (R25, R97; log 12). -/
def Processor.fetchedWord (cfg : Config) (p : Processor) : Option Cell :=
  match memRead cfg p.mem 0 p.ip with
  | .ok w => some w
  | .error _ => none

/-- The record of a fault raised by a step of `p` (R25, R161). -/
def Processor.faultRecord (cfg : Config) (p : Processor) (r : Raise) : FaultRecord where
  code := r.code
  ip := some p.ip
  word := p.fetchedWord cfg
  param := r.param
  detail := r.detail

/-- Fault entry (R161): nothing of the step is applied, status becomes Faulted, the record is written, and the outcome
is Fault(rec). ip, rb, M, the queues and last_output stay. No handler runs. -/
def State.takeFault (s : State) (p : Processor) (r : Raise) : State :=
  let rec_ := p.faultRecord s.cfg r
  s.commit { p with status := .faulted, fault := some rec_ } (.fault rec_)

/-- What an instruction does to a Processor: the Processor after it and the outcome, or the fault it raises. -/
abbrev Effect := Except Raise (Processor × StepOutcome)

/-- End a step of `p` with an effect: commit it, or take its fault (R110). -/
def State.finish (s : State) (p : Processor) : Effect → State
  | .ok (p', o) => s.commit p' o
  | .error r => s.takeFault p r

/-- Run an effect on the Processor at the cursor. -/
def State.onCurrent (s : State) (f : Config → Processor → Effect) : Host.Outcome State Fault Refusal :=
  match s.current with
  | none => .fault .noProcessor
  | some p => .next (s.finish p (f s.cfg p))

end Sys2Proof.Machine
end

