-- ==== Sys2Proof/Machine/Flags.lean ====
section
/-! DEFINITION. Conditions. The IntCode block has no flags and no condition codes (10_state.md R28): what stands here
are the ALU's tests (40_pipeline.md R107), its `ovf` signal (R116) and the range test behind it (R7). -/

namespace Sys2Proof.Machine

/-- `fitsW(v)`: v is the value of a CELL_W-bit cell (R7). -/
abbrev fitsW (cfg : Config) (v : Int) : Prop := cfg.cellMin ≤ v ∧ v ≤ cfg.cellMax

/-- `alu_lt(a, b)`: 1 if `a < b` as signed integers, else 0 (R107). -/
def aluLt (a b : Cell) : Cell := if a < b then 1 else 0

/-- `alu_eq(a, b)`: 1 if `a = b`, else 0 (R107). -/
def aluEq (a b : Cell) : Cell := if a = b then 1 else 0

/-- `alu_nz(a)` (R107). -/
def aluNz (a : Cell) : Bool := a != 0

/-- `ovf`: asserted exactly when R108 raises ArithmeticOverflow (R116). -/
def aluOvf (cfg : Config) (v : Int) : Bool := cfg.overflowPolicy = .fault ∧ ¬ fitsW cfg v

end Sys2Proof.Machine
end

