-- ==== Sys2Proof/Machine/Ports.lean ====
section
/-! DEFINITION. The host's ports that act between steps (60_exceptions.md R176, R185 to R189), the image text
(20_memory.md R55) and the placing of cells where the next step fetches. The ports that run steps are in
Machine/Runs.lean. -/

namespace Sys2Proof.Machine

/-! ## The image text (R55) -/

/-- Step 1: strip one trailing line terminator, `\n` or `\r\n`. -/
def stripTerminator (t : List Char) : List Char :=
  match t.reverse with
  | '\n' :: '\r' :: r => r.reverse
  | '\n' :: r => r.reverse
  | _ => t

/-- Step 2: split at every `sep`; a text without one is a single token. -/
def splitAtChar (sep : Char) : List Char → List (List Char)
  | [] => [[]]
  | c :: cs =>
    if c = sep then [] :: splitAtChar sep cs
    else
      match splitAtChar sep cs with
      | [] => [[c]]
      | t :: ts => (c :: t) :: ts

/-- An ASCII space or tab. -/
def isBlank (c : Char) : Bool := c = ' ' || c = '\t'

/-- Step 3: strip spaces and tabs at both ends of a token. -/
def stripBlanks (t : List Char) : List Char := ((t.dropWhile isBlank).reverse.dropWhile isBlank).reverse

/-- The value of one decimal digit character. -/
def digitChar? (c : Char) : Option Nat := if '0' ≤ c ∧ c ≤ '9' then some (c.toNat - '0'.toNat) else none

/-- The value of a run of decimal digits after `acc`. -/
def digitsFrom (acc : Nat) : List Char → Option Nat
  | [] => some acc
  | c :: cs =>
    match digitChar? c with
    | none => none
    | some d => digitsFrom (10 * acc + d) cs

/-- `[0-9]+` -/
def parseDigits : List Char → Option Nat
  | [] => none
  | c :: cs => digitsFrom 0 (c :: cs)

/-- `[+-]?[0-9]+` -/
def parseInteger : List Char → Option Int
  | '+' :: t => (parseDigits t).map Int.ofNat
  | '-' :: t => (parseDigits t).map (fun n => -Int.ofNat n)
  | t => (parseDigits t).map Int.ofNat

/-- Step 4: a token is accepted only if it is an integer that fits in a cell. -/
def parseToken (cfg : Config) (t : List Char) : Option Cell :=
  match parseInteger t with
  | none => none
  | some v => if fitsW cfg v then some v else none

/-- The image of a text, or none, a parse failure (R55; log 17). -/
def parseImage (cfg : Config) (text : List Char) : Option (List Cell) :=
  ((splitAtChar ',' (stripTerminator text)).map stripBlanks).mapM (parseToken cfg)

/-! ## Construction, which is reset (70_reset_and_hazards.md R200 to R204) -/

/-- Why construction gives no machine. -/
inductive BuildError where
  /-- ImageError, code 7: the text does not parse, a value of the image does not fit in CELL_W bits, or the image is longer
  than MEM_CAPACITY (R168) -/
  | imageError
  /-- N = 0 is refused (R176) -/
  | noProcessors
  /-- a starting input is no value of a cell (R27; log 23) -/
  | notACell
deriving DecidableEq, Repr

/-- A Processor after construction (R201). -/
def Processor.fresh (image inputs : List Cell) : Processor where
  ip := 0
  rb := 0
  status := .running
  fault := none
  lastOutput := none
  inQ := inputs
  outQ := []
  mem := Memory.load image

/-- An image that loads: every value fits in a cell, and there is a cell for each (R54, R168). -/
abbrev imageLoads (cfg : Config) (image : List Cell) : Prop :=
  image.length ≤ cfg.memCapacity ∧ ∀ v ∈ image, fitsW cfg v

/-- `new(image, inputs)`, single-Processor mode (R185, R54; logs 21, 23). -/
def State.new (cfg : Config) (image inputs : List Cell) : Except BuildError State :=
  if ¬ imageLoads cfg image then .error .imageError
  else if ¬ ∀ v ∈ inputs, fitsW cfg v then .error .notACell
  else .ok { cfg := cfg, procs := [Processor.fresh image inputs], cursor := 0, ring := none, outcome := none }

/-- The scheduler's registers after construction (R31, R202). -/
def Ring.fresh (cfg : Config) : Ring where
  carry := ⟨true, cfg.seed⟩
  passProgress := false
  nstatus := .running
  nfault := none
  result := none

/-- `new(image, PHASES)`, network mode: N Processors, each with its own copy of the image and its phase as the sole
starting input; any phase that is a value of a cell is accepted (R176, R202; logs 21, 22, 23). -/
def State.newNetwork (cfg : Config) (image : List Cell) (phases : Vector Cell cfg.ringSize) : Except BuildError State :=
  if ¬ imageLoads cfg image then .error .imageError
  else if cfg.ringSize = 0 then .error .noProcessors
  else if ¬ ∀ v ∈ phases.toList, fitsW cfg v then .error .notACell
  else .ok
    { cfg := cfg, procs := phases.toList.map (fun v => Processor.fresh image [v]), cursor := 0,
      ring := some (Ring.fresh cfg), outcome := none }

/-- Boot from an image text in single-Processor mode: parse, then construct (R204). -/
def State.boot (cfg : Config) (text : List Char) (inputs : List Cell) : Except BuildError State :=
  match parseImage cfg text with
  | none => .error .imageError
  | some image => State.new cfg image inputs

/-- Boot from an image text in network mode (R204). -/
def State.bootNetwork (cfg : Config) (text : List Char) (phases : Vector Cell cfg.ringSize) : Except BuildError State :=
  match parseImage cfg text with
  | none => .error .imageError
  | some image => State.newNetwork cfg image phases

/-! ## Ports between steps, single-Processor mode (R185) -/

/-- What a port answers when it does not do its work; none of these changes the machine. -/
inductive PortError where
  /-- QueueOverflow to the host (R167) -/
  | queueOverflow
  /-- the value given is no value of a cell (R27; log 23) -/
  | notACell
  /-- MemoryFault to the host (R165) -/
  | memoryFault (a : Int)
  /-- a network offers no such port (R188, R189; log 15) -/
  | noSuchPort
deriving DecidableEq, Repr

/-- The Processor the single-mode ports act on. -/
def State.single (s : State) : Except PortError Processor :=
  match s.ring, s.current with
  | none, some p => .ok p
  | _, _ => .error .noSuchPort

/-- `inject_input(v)` (R186; log 23). -/
def State.injectInput (s : State) (v : Cell) : Except PortError State :=
  match s.single with
  | .error e => .error e
  | .ok p =>
    if ¬ fitsW s.cfg v then .error .notACell
    else
      match p.inject s.cfg v with
      | .error _ => .error .queueOverflow
      | .ok p' => .ok (s.setCurrent p')

/-- `drain_output()`: every value of OutQ, oldest first, and OutQ empty; last_output stays (R187). -/
def State.drainOutput (s : State) : Except PortError (List Cell × State) :=
  match s.single with
  | .error e => .error e
  | .ok p => .ok (p.outQ, s.setCurrent { p with outQ := [] })

/-- The port `status` (R185). -/
def State.statusPort (s : State) : Except PortError Status := s.single.map Processor.status

/-- The port `fault` (R185). -/
def State.faultPort (s : State) : Except PortError (Option FaultRecord) := s.single.map Processor.fault

/-- The port `last_output` (R185). -/
def State.lastOutputPort (s : State) : Except PortError (Option Cell) := s.single.map Processor.lastOutput

/-- `peek(a)`: M[a] or MemoryFault, with no effect on the Processor (R68, R165, R185). -/
def State.peek (s : State) (a : Int) : Except PortError Cell :=
  match s.single with
  | .error e => .error e
  | .ok p =>
    match memRead s.cfg p.mem 0 a with
    | .error _ => .error (.memoryFault a)
    | .ok v => .ok v

/-! ## Placing cells where the next step fetches (log 14) -/

/-- Store cells at consecutive addresses, those below MEM_CAPACITY. -/
def Memory.place (cfg : Config) (m : Memory) : Nat → List Cell → Memory
  | _, [] => m
  | a, v :: vs => Memory.place cfg (if a < cfg.memCapacity then Memory.write m a v else m) (a + 1) vs

/-- The cells at the ip of the Processor at the cursor; a Processor that has stopped is Running, and so is the ring. -/
def State.placeCells (s : State) (cells : List Cell) : State :=
  match s.current with
  | none => s
  | some p =>
    let status := match p.status with
      | .running | .halted | .faulted => Status.running
      | .blocked => .blocked
    { s.setCurrent { p with mem := Memory.place s.cfg p.mem p.ip cells, status := status } with
      ring := s.ring.map (fun r => { r with nstatus := .running }) }

end Sys2Proof.Machine
end

