-- ==== Sys2Proof/WellFormed.lean ====
section
/-! DEFINITION. Which instructions have an encoding: a write target is never Immediate (30_encoding.md R87). -/

namespace Sys2Proof

/-- A write target is Position or Relative (R83: C ∈ {0, 2}, and A ∈ {0, 2} for IN). -/
abbrev Operand.isTarget (o : Operand) : Prop := o.mode ≠ .immediate

/-- The instruction is one the decoder can give: its write parameter, if it has one, is not Immediate (R87). -/
abbrev Instr.WellFormed (i : Instr) : Prop := ∀ w ∈ i.writeParam, w.2.isTarget

end Sys2Proof
end

