-- ==== Sys2Proof/Decode.lean ====
section
/-! DEFINITION. The addressing-mode decoder's word half (30_encoding.md R75 to R94, 40_pipeline.md R98 to R100) and,
after it, the encoder (R92). Words are decimal: fields are decimal digits of the cell's signed value (R8). -/

namespace Sys2Proof

/-! ## Fields of an instruction word -/

/-- `digit(w, k) = (w quot 10^k) rem 10`, truncated division (R7, R8). -/
def digit (w : Int) (k : Nat) : Int := (w.tdiv (10 ^ k)).tmod 10

/-- `op = w rem 100` (R77). A negative word gives a value in -99 .. 0 (R82). -/
def opcodeField (w : Int) : Int := w.tmod 100

/-- `mode_i = digit(w, i + 1)` (R79). -/
def modeField (w : Int) (i : Nat) : Int := digit w (i + 1)

/-- The ten opcodes (R78), one per constructor of `Instr`. -/
inductive Opcode where
  | add | mul | inp | out | jt | jf | lt | eq | arb | hlt
deriving DecidableEq, Repr

/-- The opcode numbers (R78, column op). -/
def Opcode.number : Opcode → Int
  | .add => 1
  | .mul => 2
  | .inp => 3
  | .out => 4
  | .jt => 5
  | .jf => 6
  | .lt => 7
  | .eq => 8
  | .arb => 9
  | .hlt => 99

/-- The mnemonics (R78, R90). -/
def Opcode.mnemonic : Opcode → String
  | .add => "ADD"
  | .mul => "MUL"
  | .inp => "IN"
  | .out => "OUT"
  | .jt => "JT"
  | .jf => "JF"
  | .lt => "LT"
  | .eq => "EQ"
  | .arb => "ARB"
  | .hlt => "HLT"

/-- The opcode set, complete and closed (R78). -/
def Opcode.all : List Opcode := [.add, .mul, .inp, .out, .jt, .jf, .lt, .eq, .arb, .hlt]

/-- The number of parameters, n (R78, column arity). -/
def Opcode.arity : Opcode → Nat
  | .add | .mul | .lt | .eq => 3
  | .jt | .jf => 2
  | .inp | .out | .arb => 1
  | .hlt => 0

/-- The index of the write parameter (R100, R115); 0 when there is none. -/
def Opcode.wparam : Opcode → Nat
  | .add | .mul | .lt | .eq => 3
  | .inp => 1
  | .out | .jt | .jf | .arb | .hlt => 0

/-- The opcode with a given number, if any (R77, R85). -/
def Opcode.ofNumber? (n : Int) : Option Opcode := Opcode.all.find? (fun o => o.number == n)

/-- Mode digits (R80). -/
def Mode.number : Mode → Int
  | .position => 0
  | .immediate => 1
  | .relative => 2

/-- The mode of a digit; 3 to 9 are illegal (R80, R86). -/
def Mode.ofDigit? (d : Int) : Option Mode :=
  if d = 0 then some .position else if d = 1 then some .immediate else if d = 2 then some .relative else none

/-! ## The decoder -/

/-- The decode faults of R85 to R87 (`dec_fault`, R115). -/
inductive DecodeFault where
  /-- `w rem 100` is no opcode (R85) -/
  | invalidOpcode
  /-- the mode digit of parameter `i` is not 0, 1 or 2 (R86) -/
  | invalidParameterMode (i : Nat) (digit : Int)
  /-- the write parameter `j` has mode 1 (R87) -/
  | invalidWriteTarget (j : Nat)
deriving DecidableEq, Repr

/-- Why a list of cells is not an instruction. -/
inductive DecodeError where
  /-- its word is rejected (R88) -/
  | fault (f : DecodeFault)
  /-- The list ends before cell `i` of the instruction. A list's own end, not the hardware's: the pipeline fetches
  its cells from memory (R97, R101). Log 10. -/
  | truncated (i : Nat)
deriving DecidableEq, Repr

/-- DECODE, modes (R99): parameters `i`, `i + 1`, ..., `n` of them, the first illegal digit in that order reported. -/
def decodeModes (w : Int) : Nat → Nat → Except DecodeFault (List Mode)
  | _, 0 => .ok []
  | i, n + 1 =>
    match Mode.ofDigit? (modeField w i) with
    | none => .error (.invalidParameterMode i (modeField w i))
    | some m =>
      match decodeModes w (i + 1) n with
      | .error e => .error e
      | .ok ms => .ok (m :: ms)

/-- The decoder's view of an instruction word: the opcode and the modes of its parameters, in order (R115). -/
structure Header where
  op : Opcode
  modes : List Mode
deriving DecidableEq, Repr

/-- Mode of parameter `i`, 1-based. -/
def Header.mode (h : Header) (i : Nat) : Mode := h.modes.getD (i - 1) .position

/-- DECODE (R98, R99, R100), in that order: opcode, modes of parameters 1 to n, write target. -/
def decodeHeader (w : Cell) : Except DecodeFault Header :=
  match Opcode.ofNumber? (opcodeField w) with
  | none => .error .invalidOpcode
  | some op =>
    match decodeModes w 1 op.arity with
    | .error e => .error e
    | .ok ms =>
      if op.wparam ≠ 0 ∧ (Header.mk op ms).mode op.wparam = .immediate then .error (.invalidWriteTarget op.wparam)
      else .ok ⟨op, ms⟩

/-- The instruction of a decoded word and its raw parameter cells `raw_1 .. raw_n` (R75, R84). -/
def Header.instr (h : Header) (raws : List Cell) : Instr :=
  let p := fun i => Operand.mk (h.mode i) (raws.getD (i - 1) 0)
  match h.op with
  | .add => .add (p 1) (p 2) (p 3)
  | .mul => .mul (p 1) (p 2) (p 3)
  | .inp => .inp (p 1)
  | .out => .out (p 1)
  | .jt => .jt (p 1) (p 2)
  | .jf => .jf (p 1) (p 2)
  | .lt => .lt (p 1) (p 2) (p 3)
  | .eq => .eq (p 1) (p 2) (p 3)
  | .arb => .arb (p 1)
  | .hlt => .hlt

/-- Decode the instruction at the front of a list of cells and give the cells after it (R75, R89). Total. -/
def decode : List Cell → Except DecodeError (Instr × List Cell)
  | [] => .error (.truncated 0)
  | w :: rest =>
    match decodeHeader w with
    | .error f => .error (.fault f)
    | .ok h =>
      if rest.length < h.op.arity then .error (.truncated (rest.length + 1))
      else .ok (h.instr (rest.take h.op.arity), rest.drop h.op.arity)

/-! ## The encoder -/

/-- The opcode of an instruction. -/
def Instr.opcode : Instr → Opcode
  | .add _ _ _ => .add
  | .mul _ _ _ => .mul
  | .inp _ => .inp
  | .out _ => .out
  | .jt _ _ => .jt
  | .jf _ _ => .jf
  | .lt _ _ _ => .lt
  | .eq _ _ _ => .eq
  | .arb _ => .arb
  | .hlt => .hlt

/-- The mode digits' part of the canonical word: parameter `i` weighs `10^(i+1)` (R92). -/
def modeWeights : Nat → List Operand → Int
  | _, [] => 0
  | i, o :: os => o.mode.number * 10 ^ (i + 1) + modeWeights (i + 1) os

/-- The canonical word `op + 100*m1 + 1000*m2 + 10000*m3` (R92). -/
def Instr.word (i : Instr) : Int := i.opcode.number + modeWeights 1 i.operands

/-- The cells of an instruction: the canonical word, then its raw parameters (R75, R92). -/
def encode (i : Instr) : List Cell := i.word :: i.operands.map Operand.raw

/-! ## The host's table words -/

/-- Up to the longest instruction's four cells (R75) of an instruction whose bits are `w`, bit 0 the least significant
bit of the first cell and each further cell counting on from it; bits from `nbits` on are 0. A cell has this hardware's
width, and its bits are the two's complement of its value (R51; log 14). -/
def tableCells (nbits w : Nat) : List Cell :=
  let v := w % 2 ^ nbits
  (List.range 4).map fun k =>
    Int.bmod (v / 2 ^ (k * Config.hardware.cellW) : Nat) (2 ^ Config.hardware.cellW)

/-- The instruction the decoder reads from a table word, none where it refuses. -/
def decodeTableWord (nbits w : Nat) : Option Instr :=
  match decode (tableCells nbits w) with
  | .ok (i, _) => some i
  | .error _ => none

end Sys2Proof
end

