-- ==== Sys2Proof/Machine/Alu.lean ====
section
/-! DEFINITION. The ALU's arithmetic: exact results, narrowed by `fix` (40_pipeline.md R107, R108). -/

namespace Sys2Proof.Machine

/-- `wrapW(v)`: the value of a cell that is congruent to `v` modulo 2^CELL_W (R7). -/
def wrapW (cfg : Config) (v : Int) : Cell := Int.bmod v (2 ^ cfg.cellW)

/-- `fix(v)` (R108): v if it fits; otherwise ArithmeticOverflow with the exact result, or `wrapW(v)` under `wrap`. -/
def fix (cfg : Config) (v : Int) : Except Raise Cell :=
  if fitsW cfg v then .ok v
  else if aluOvf cfg v then .error ⟨.arithmeticOverflow, 0, some v⟩
  else .ok (wrapW cfg v)

/-- `alu_add(a, b)` (R107). -/
def aluAdd (cfg : Config) (a b : Cell) : Except Raise Cell := fix cfg (a + b)

/-- `alu_mul(a, b)` (R107). -/
def aluMul (cfg : Config) (a b : Cell) : Except Raise Cell := fix cfg (a * b)

/-- `alu_rb(r, v)` (R107). -/
def aluRb (cfg : Config) (r v : Cell) : Except Raise Cell := fix cfg (r + v)

/-- `alu_next(ip, len)`, exact (R107, R109). -/
def aluNext (ip len : Nat) : Nat := ip + len

end Sys2Proof.Machine
end

