-- ==== Sys2Proof/Machine/Operands.lean ====
section
/-! DEFINITION. Operand resolution: the addressing modes (40_pipeline.md R102 to R105). -/

namespace Sys2Proof.Machine

/-- `alu_addr(rb, raw)`: the sum is exact and never wraps (R104, R107). -/
def Processor.relativeAddr (p : Processor) (raw : Cell) : Int := p.rb + raw

/-- `read(i)` (R102, R103, R104). -/
def Processor.readOperand (cfg : Config) (p : Processor) (i : Nat) (o : Operand) : Except Raise Cell :=
  match o.mode with
  | .position => memRead cfg p.mem i o.raw
  | .immediate => .ok o.raw
  | .relative => memRead cfg p.mem i (p.relativeAddr o.raw)

/-- The address a write parameter names, before the bounds check; none for Immediate (R84, R105). -/
def Processor.targetAddr (p : Processor) (o : Operand) : Option Int :=
  match o.mode with
  | .position => some o.raw
  | .immediate => none
  | .relative => some (p.relativeAddr o.raw)

/-- `waddr(j)`: the address, bounds-checked; it reads no memory (R105). The decoder has rejected mode 1 before
(R100); the same fault stands here for an instruction that is not well-formed (log 11). -/
def Processor.writeAddr (cfg : Config) (p : Processor) (j : Nat) (o : Operand) : Except Raise Int :=
  match p.targetAddr o with
  | none => .error ⟨.invalidWriteTarget, j, none⟩
  | some a => if legalAddr cfg a then .ok a else .error ⟨.memoryFault, j, some a⟩

/-- DECODE, write target (R100): mode 1 on write parameter `j` is InvalidWriteTarget, before any operand is read. -/
def checkTarget (j : Nat) (o : Operand) : Except Raise Unit :=
  if o.mode = .immediate then .error ⟨.invalidWriteTarget, j, none⟩ else .ok ()

end Sys2Proof.Machine
end

