-- ==== Sys2Proof/Machine/Arithmetic.lean ====
section
/-! DEFINITION. ADD, MUL, LT and EQ (41_arithmetic.md R125 to R128). -/

namespace Sys2Proof.Machine

/-- Format F3: `read(1)`, `read(2)`, `waddr(3)`, the ALU, the write, `ip + 4`, in that order (R106, R114, R170). -/
def binaryEffect (alu : Config → Cell → Cell → Except Raise Cell) (a b dst : Operand) (cfg : Config) (p : Processor) :
    Effect := do
  checkTarget 3 dst
  let x ← p.readOperand cfg 1 a
  let y ← p.readOperand cfg 2 b
  let d ← p.writeAddr cfg 3 dst
  let r ← alu cfg x y
  let m ← memWrite cfg p.mem 3 d r
  return ({ p with mem := m, ip := aluNext p.ip 4 }, .progress none)

/-- ADD (R125). -/
def execAdd (a b dst : Operand) (s : State) : Host.Outcome State Fault Refusal :=
  s.onCurrent (binaryEffect aluAdd a b dst)

/-- MUL (R126). -/
def execMul (a b dst : Operand) (s : State) : Host.Outcome State Fault Refusal :=
  s.onCurrent (binaryEffect aluMul a b dst)

/-- LT (R127); it cannot overflow. -/
def execLt (a b dst : Operand) (s : State) : Host.Outcome State Fault Refusal :=
  s.onCurrent (binaryEffect (fun _ x y => .ok (aluLt x y)) a b dst)

/-- EQ (R128); it cannot overflow. -/
def execEq (a b dst : Operand) (s : State) : Host.Outcome State Fault Refusal :=
  s.onCurrent (binaryEffect (fun _ x y => .ok (aluEq x y)) a b dst)

end Sys2Proof.Machine
end

