-- ==== Sys2Proof/Machine/Control.lean ====
section
/-! DEFINITION. JT, JF and HLT (43_control.md R145 to R147). -/

namespace Sys2Proof.Machine

/-- The ip a taken jump writes: `read(2)`, which a negative value makes a MemoryFault (R145, R165). A target at or above
MEM_CAPACITY is accepted; the next FETCH faults. -/
def jumpTarget (cfg : Config) (p : Processor) (target : Operand) : Except Raise Nat := do
  let t ← p.readOperand cfg 2 target
  if t < 0 then throw ⟨.memoryFault, 2, some t⟩ else return t.toNat

/-- A conditional jump: `read(1)`; the target is read only when `taken` holds of the condition (R106, R145, R146). -/
def jumpEffect (taken : Cell → Bool) (cond target : Operand) (cfg : Config) (p : Processor) : Effect := do
  let c ← p.readOperand cfg 1 cond
  if taken c then
    let t ← jumpTarget cfg p target
    return ({ p with ip := t }, .progress none)
  else return ({ p with ip := aluNext p.ip 3 }, .progress none)

/-- HLT: status <- Halted; ip keeps the address of the HLT word (R147). -/
def haltEffect (_ : Config) (p : Processor) : Effect := .ok ({ p with status := .halted }, .progress none)

/-- JT (R145). -/
def execJt (cond target : Operand) (s : State) : Host.Outcome State Fault Refusal :=
  s.onCurrent (jumpEffect aluNz cond target)

/-- JF (R146). -/
def execJf (cond target : Operand) (s : State) : Host.Outcome State Fault Refusal :=
  s.onCurrent (jumpEffect (fun c => !aluNz c) cond target)

/-- HLT (R147). -/
def execHlt (s : State) : Host.Outcome State Fault Refusal := s.onCurrent haltEffect

end Sys2Proof.Machine
end

