-- ==== Sys2Proof/Machine/InputOutput.lean ====
section
/-! DEFINITION. IN and OUT (42_io.md R135 to R137). -/

namespace Sys2Proof.Machine

/-- IN: the destination check comes before the queue test; an empty InQ is Starved, with only status written (R135). -/
def inputEffect (dst : Operand) (cfg : Config) (p : Processor) : Effect := do
  checkTarget 1 dst
  let d ← p.writeAddr cfg 1 dst
  match p.inQ with
  | [] => return ({ p with status := .blocked }, .starved)
  | v :: q =>
    let m ← memWrite cfg p.mem 1 d v
    return ({ p with inQ := q, mem := m, ip := aluNext p.ip 2, status := .running }, .progress none)

/-- OUT: push the operand, update last_output (R136); QueueOverflow only with a finite QUEUE_DEPTH (R167). -/
def outputEffect (v : Operand) (cfg : Config) (p : Processor) : Effect := do
  let x ← p.readOperand cfg 1 v
  let q ← pushQueue cfg p.outQ x
  return ({ p with outQ := q, lastOutput := some x, ip := aluNext p.ip 2 }, .progress (some x))

/-- IN (R135). -/
def execIn (dst : Operand) (s : State) : Host.Outcome State Fault Refusal := s.onCurrent (inputEffect dst)

/-- OUT (R136). -/
def execOut (v : Operand) (s : State) : Host.Outcome State Fault Refusal := s.onCurrent (outputEffect v)

end Sys2Proof.Machine
end

