-- ==== Sys2Proof/Machine/RelativeBase.lean ====
section
/-! DEFINITION. ARB, the only instruction that writes rb (44_relative_base.md R155). -/

namespace Sys2Proof.Machine

/-- `rb <- fix(rb + read(1))`; a Relative operand uses the old rb (R155). -/
def relativeBaseEffect (v : Operand) (cfg : Config) (p : Processor) : Effect := do
  let x ← p.readOperand cfg 1 v
  let r ← aluRb cfg p.rb x
  return ({ p with rb := r, ip := aluNext p.ip 2 }, .progress none)

/-- ARB (R155). -/
def execArb (v : Operand) (s : State) : Host.Outcome State Fault Refusal := s.onCurrent (relativeBaseEffect v)

end Sys2Proof.Machine
end

