-- ==== Sys2Proof/Machine/Dispatch.lean ====
section
/-! DEFINITION. One arm per instruction. -/

namespace Sys2Proof.Machine

def exec (i : Instr) (s : State) : Host.Outcome State Fault Refusal :=
  match i with
  | .add a b d => Sys2Proof.Machine.execAdd a b d s
  | .mul a b d => Sys2Proof.Machine.execMul a b d s
  | .inp d => Sys2Proof.Machine.execIn d s
  | .out v => Sys2Proof.Machine.execOut v s
  | .jt c t => Sys2Proof.Machine.execJt c t s
  | .jf c t => Sys2Proof.Machine.execJf c t s
  | .lt a b d => Sys2Proof.Machine.execLt a b d s
  | .eq a b d => Sys2Proof.Machine.execEq a b d s
  | .arb v => Sys2Proof.Machine.execArb v s
  | .hlt => Sys2Proof.Machine.execHlt s

end Sys2Proof.Machine
end

