-- ==== Sys2Proof/Machine/Pipeline.lean ====
section
/-! DEFINITION. One step of one Processor: GATE, FETCH, DECODE, PARAMETER FETCH, then the instruction
(40_pipeline.md R95 to R101). -/

namespace Sys2Proof.Machine

/-- The fault of a word the decoder rejects (R98, R99, R100; R160). -/
def raiseOfDecode : DecodeFault → Raise
  | .invalidOpcode => ⟨.invalidOpcode, 0, none⟩
  | .invalidParameterMode i d => ⟨.invalidParameterMode, i, some d⟩
  | .invalidWriteTarget j => ⟨.invalidWriteTarget, j, none⟩

/-- PARAMETER FETCH (R101): the cells `ip + i`, `ip + i + 1`, ..., `n` of them, in order. -/
def fetchParams (cfg : Config) (p : Processor) : Nat → Nat → Except Raise (List Cell)
  | _, 0 => .ok []
  | i, n + 1 =>
    match memRead cfg p.mem i ((p.ip + i : Nat) : Int) with
    | .error r => .error r
    | .ok v =>
      match fetchParams cfg p (i + 1) n with
      | .error r => .error r
      | .ok vs => .ok (v :: vs)

/-- FETCH, DECODE and PARAMETER FETCH of the instruction at ip, in that order (R95, R97 to R101, R170 1 to 5). -/
def Processor.fetch (cfg : Config) (p : Processor) : Except Raise Instr :=
  match memRead cfg p.mem 0 p.ip with
  | .error r => .error r
  | .ok w =>
    match decodeHeader w with
    | .error e => .error (raiseOfDecode e)
    | .ok h =>
      match fetchParams cfg p 1 h.op.arity with
      | .error r => .error r
      | .ok raws => .ok (h.instr raws)

/-- One step of the Processor at the cursor. GATE (R96): Halted and Faulted are Idle, with nothing changed but the
outcome port; Running and Blocked go on to FETCH, so that a Blocked Processor runs its IN again (R137). -/
def State.stepCurrent (s : State) : Host.Outcome State Fault Refusal :=
  match s.current with
  | none => .fault .noProcessor
  | some p =>
    match p.status with
    | .halted | .faulted => .next { s with outcome := some .idle }
    | .running | .blocked =>
      match p.fetch s.cfg with
      | .error r => .next (s.takeFault p r)
      | .ok i => exec i s

end Sys2Proof.Machine
end

