-- ==== Sys2Proof/Machine/Scheduler.lean ====
section
/-! DEFINITION. The round-robin scheduler and the ring I/O mux (60_exceptions.md R176 to R184). -/

namespace Sys2Proof.Machine

/-- A record that the scheduler makes itself, with no faulting step behind it (R160 codes 6 and 8; log 8). -/
def schedulerRecord (code : FaultCode) (detail : Option Int) : FaultRecord where
  code := code
  ip := none
  word := none
  param := 0
  detail := detail

/-- NFaulted, recording the Processor index and the record (R181, R182). -/
def Ring.abort (r : Ring) (k : Nat) (rec_ : FaultRecord) : Ring :=
  { r with nstatus := .faulted, nfault := some (k, rec_) }

/-- EndOfPass (R179, R182): all Halted is NDone with P[N-1].last_output, or NoOutput where that is none; otherwise a
pass without progress is NDeadlocked. Then pass_progress <- false. -/
def Ring.endOfPass (r : Ring) (procs : List Processor) : Ring :=
  let r' :=
    if procs.all (fun p => p.status == .halted) then
      match procs.getLast?.bind Processor.lastOutput with
      | some v => { r with nstatus := .done, result := some v }
      | none => r.abort (procs.length - 1) (schedulerRecord .noOutput (some (procs.length - 1 : Nat)))
    else if r.passProgress then r
    else { r with nstatus := .deadlocked }
  { r' with passProgress := false }

/-- Carry capture (R178): a step that made progress sets pass_progress, and the value OUT pushed becomes the new
carried value; Starved and Idle change nothing. -/
def Ring.capture (r : Ring) : StepOutcome → Ring
  | .progress (some v) => { r with passProgress := true, carry := ⟨true, v⟩ }
  | .progress none => { r with passProgress := true }
  | .starved | .idle | .fault _ => r

/-- What follows the step of a slot (R178): a fault aborts the network, and the cursor stays (R181); otherwise carry
capture, EndOfPass after Processor N-1, and the cursor moves on (R177). -/
def State.endSlot (s : State) (r : Ring) : State :=
  match s.outcome with
  | some (.fault rec_) => { s with ring := some (r.abort s.cursor rec_) }
  | some o =>
    let r' := r.capture o
    let r'' := if s.cursor + 1 = s.procs.length then r'.endOfPass s.procs else r'
    { s with ring := some r'', cursor := (s.cursor + 1) % s.procs.length }
  | none => s

/-- The step of a slot on the Processor at the cursor, and what follows it (R178). -/
def State.slotStep (s : State) (r : Ring) : Host.Outcome State Fault Refusal :=
  match s.stepCurrent with
  | .next s' => .next (s'.endSlot r)
  | .fault f => .fault f
  | .refused f => .refused f

/-- Carry injection and the slot (R178). An overflow of InQ aborts the network before any step (R167, R181; log 13). -/
def State.slot (s : State) (r : Ring) : Host.Outcome State Fault Refusal :=
  match s.current with
  | none => .fault .noProcessor
  | some p =>
    if r.carry.valid then
      match p.inject s.cfg r.carry.value with
      | .error e => .next { s with ring := some (r.abort s.cursor (schedulerRecord e.code e.detail)) }
      | .ok p' =>
        let r' := { r with carry := { r.carry with valid := false } }
        ({ s.setCurrent p' with ring := some r' }).slotStep r'
    else s.slotStep r

/-- What one step of the block is: a step of the Processor in single-Processor mode (R185), a slot in network mode,
"allowed only while nstatus = NRunning" (R178; log 9). -/
def State.turn (s : State) : Host.Outcome State Fault Refusal :=
  match s.ring with
  | none => s.stepCurrent
  | some r =>
    match r.nstatus with
    | .running => s.slot r
    | .done => .fault .networkDone
    | .deadlocked => .fault .networkDeadlocked
    | .faulted => .fault .networkFaulted

end Sys2Proof.Machine
end

