-- ==== Sys2Proof/Machine/Step.lean ====
section
/-! DEFINITION. One step of the block, and the placing of a word where the next step fetches. -/

namespace Sys2Proof.Machine

/-- One step: a Processor's step, or a slot of the ring (`State.turn`). -/
def step (s : State) : Host.Outcome State Fault Refusal := s.turn

/-- `s` with the cells of a table word stored at the ip of the Processor whose step is next, that Processor and the
ring made ready to run where they have stopped (log 14). -/
def State.withFetchWord (s : State) (nbits w : Nat) : State := s.placeCells (tableCells nbits w)

end Sys2Proof.Machine
end

