-- ==== Sys2Proof/Machine/Runs.lean ====
section
/-! DEFINITION. The host's ports that run steps (40_pipeline.md R112, 60_exceptions.md R185, R188), and what can happen
to a machine between construction and its end. `run_to_halt` and `run` may never return, so each takes a bound on the
steps and answers none where it has not returned within it (log 16). -/

namespace Sys2Proof.Machine

/-- What `run_to_halt()` returns (R112, R185). -/
inductive HaltReturn where
  /-- ok, with nothing else, on Halted -/
  | ok
  /-- the fault, on Faulted -/
  | fault (rec : FaultRecord)
deriving DecidableEq, Repr

/-- What `run_to_halt()` returns on a Processor that has ended; none on one that has not. -/
def Processor.haltReturn (p : Processor) : Option HaltReturn :=
  match p.status with
  | .halted => some .ok
  | .faulted => p.fault.map HaltReturn.fault
  | .running | .blocked => none

/-- `run_to_halt()` within `fuel` steps, single-Processor mode: what it returns when status is Halted or Faulted, and the
machine then (R112). A Starved outcome does not end the loop. -/
def State.runToHalt : Nat → State → Option (HaltReturn × State)
  | fuel, s =>
    match s.single with
    | .error _ => none
    | .ok p =>
      match p.haltReturn with
      | some r => some (r, s)
      | none =>
        match fuel with
        | 0 => none
        | fuel' + 1 =>
          match step s with
          | .next s' => State.runToHalt fuel' s'
          | .fault _ => none
          | .refused _ => none

/-- What `run()` of a network returns (R188). -/
inductive NetworkReturn where
  /-- the result, on NDone -/
  | result (v : Cell)
  /-- the Processor index and its fault, on NFaulted -/
  | fault (k : Nat) (rec : FaultRecord)
deriving DecidableEq, Repr

/-- `run()` within `fuel` slots; it never returns on NDeadlocked (R188). -/
def State.runNetwork : Nat → State → Option NetworkReturn
  | fuel, s =>
    match s.ring with
    | none => none
    | some r =>
      match r.nstatus with
      | .done => r.result.map NetworkReturn.result
      | .faulted => r.nfault.map (fun f => NetworkReturn.fault f.1 f.2)
      | .deadlocked => none
      | .running =>
        match fuel with
        | 0 => none
        | fuel' + 1 =>
          match step s with
          | .next s' => State.runNetwork fuel' s'
          | .fault _ => none
          | .refused _ => none

/-- What can happen to a machine: a step, or a host action between steps (R185, R189). -/
inductive Event where
  | step
  | inject (v : Cell)
  | drain
deriving DecidableEq, Repr

/-- The machine after an event; none where the event does not happen (no next state, or the port does not act). -/
def State.after (s : State) : Event → Option State
  | .step =>
    match Sys2Proof.Machine.step s with
    | .next s' => some s'
    | .fault _ => none
    | .refused _ => none
  | .inject v =>
    match s.injectInput v with
    | .ok s' => some s'
    | .error _ => none
  | .drain =>
    match s.drainOutput with
    | .ok (_, s') => some s'
    | .error _ => none

end Sys2Proof.Machine
end

