-- ==== Sys2Proof/Safety.lean ====
section
/-! DEFINITION. What counts as a safe step, how runs end, and the invariants of the machine, in the terms the
statements use. -/

namespace Sys2Proof.Machine

/-! ## Steps and ends of runs -/

/-- The `n` cells from ip on, those a fetch of an `n`-cell instruction reads (R75). -/
def Processor.window (p : Processor) (n : Nat) : List Cell := (List.range n).map (fun k => Memory.read p.mem (p.ip + k))

/-- A status in which the gate lets a step go on to FETCH (R96). -/
abbrev Status.Runs (st : Status) : Prop := st = .running ∨ st = .blocked

/-- The step is made and reports no fault: the program's obligations (a) to (e) of R205 hold at this step. -/
def State.SafeStep (s : State) : Prop := ∃ s', step s = .next s' ∧ ∀ r, s'.outcome ≠ some (.fault r)

/-- A run has ended (R190). -/
def State.Ended (s : State) : Prop :=
  match s.ring with
  | none => ∃ p, s.current = some p ∧ (p.status = .halted ∨ p.status = .faulted)
  | some r => r.nstatus ≠ .running

/-- A run has ended and its end is final: Halted, or NDone (R190). -/
def State.Final (s : State) : Prop :=
  match s.ring with
  | none => ∃ p, s.current = some p ∧ p.status = .halted
  | some r => r.nstatus = .done

/-! ## Stores -/

/-- The value that an instruction with readable operands stores in its write target, none where it stores none: the sum,
the product, a 0 or 1, or the head of InQ (R125 to R128, R135). -/
def Processor.storedValue (cfg : Config) (p : Processor) : Instr → Option Cell
  | .add a b _ => (do aluAdd cfg (← p.readOperand cfg 1 a) (← p.readOperand cfg 2 b)).toOption
  | .mul a b _ => (do aluMul cfg (← p.readOperand cfg 1 a) (← p.readOperand cfg 2 b)).toOption
  | .lt a b _ => (do return aluLt (← p.readOperand cfg 1 a) (← p.readOperand cfg 2 b)).toOption
  | .eq a b _ => (do return aluEq (← p.readOperand cfg 1 a) (← p.readOperand cfg 2 b)).toOption
  | .inp _ => p.inQ.head?
  | .out _ | .jt _ _ | .jf _ _ | .arb _ | .hlt => none

/-! ## Frames -/

/-- Nothing outside the Processor at the cursor differs, the outcome port apart: parameters, scheduler registers,
cursor and every other Processor are the same (R56, R196). -/
structure State.SameAround (s s' : State) : Prop where
  cfg : s'.cfg = s.cfg
  cursor : s'.cursor = s.cursor
  ring : s'.ring = s.ring
  count : s'.procs.length = s.procs.length
  others : ∀ k, k ≠ s.cursor → s'.procs[k]? = s.procs[k]?

/-- A carry that is pending fits in the InQ of the Processor whose slot is next; always so with unbounded queues (R167). -/
def State.CarryFits (s : State) (r : Ring) : Prop :=
  r.carry.valid = true → ∀ p, s.current = some p → queueFull s.cfg p.inQ = false

/-! ## Invariants -/

/-- Every value a Processor holds is a value of a CELL_W-bit cell (R22, R26, R27, R51). -/
structure Processor.CellsFit (cfg : Config) (p : Processor) : Prop where
  rb : fitsW cfg p.rb
  mem : ∀ c ∈ p.mem, fitsW cfg c.2
  inQ : ∀ v ∈ p.inQ, fitsW cfg v
  outQ : ∀ v ∈ p.outQ, fitsW cfg v
  lastOutput : ∀ v, p.lastOutput = some v → fitsW cfg v

/-- What holds of every Processor of a constructed machine: its values fit their cells, ip in its range (R21), memory in
canonical form and inside the capacity (R50), Blocked only with InQ empty and at an IN whose target is good (R135, R137,
R174), the fault record present exactly when Faulted (R25), OutQ within QUEUE_DEPTH (R27). -/
structure Processor.WF (cfg : Config) (p : Processor) : Prop where
  cells : p.CellsFit cfg
  ip_range : (p.ip : Int) ≤ cfg.cellMax
  mem_wf : Memory.wf p.mem
  mem_bound : ∀ c ∈ p.mem, c.1 < cfg.memCapacity
  blocked_empty : p.status = .blocked → p.inQ = []
  blocked_input : p.status = .blocked → ∃ w d, p.fetch cfg = .ok (.inp w) ∧ p.writeAddr cfg 1 w = .ok d
  fault_iff : p.status = .faulted ↔ p.fault.isSome
  outQ_depth : ∀ d, cfg.queueDepth = some d → p.outQ.length ≤ d

/-- What holds of every constructed machine: legal parameters (R6), the cursor names a Processor (R30 c), one Processor
in single-Processor mode and N in a ring (R138, R30 a), every Processor's own invariant, and the carry and the result
values of a cell (R30 b, g). -/
structure State.WF (s : State) : Prop where
  cfg_valid : s.cfg.Valid
  cursor_lt : s.cursor < s.procs.length
  count : s.procs.length = match s.ring with
    | none => 1
    | some _ => s.cfg.ringSize
  procs_wf : ∀ p ∈ s.procs, p.WF s.cfg
  carry_fits : ∀ r, s.ring = some r → fitsW s.cfg r.carry.value
  result_fits : ∀ r v, s.ring = some r → r.result = some v → fitsW s.cfg v

/-- A Processor that no slot can move without an injection: Halted, or Blocked with InQ empty (R180). -/
def Processor.Quiet (p : Processor) : Prop := p.status = .halted ∨ (p.status = .blocked ∧ p.inQ = [])

/-- What the network run state says of the ring (R179 to R182), and what a pass without progress has left so far. -/
def Ring.Consistent (r : Ring) (procs : List Processor) (cursor : Nat) : Prop :=
  match r.nstatus with
  | .running =>
    (∀ p ∈ procs, p.status ≠ .faulted) ∧ r.nfault = none ∧ r.result = none ∧
      (r.passProgress = false →
        (∀ p ∈ procs.take cursor, p.Quiet) ∧ (0 < cursor → r.carry.valid = false))
  | .done =>
    (∀ p ∈ procs, p.status = .halted) ∧ r.nfault = none ∧
      ∃ v, r.result = some v ∧ procs.getLast?.bind Processor.lastOutput = some v
  | .deadlocked =>
    (∀ p ∈ procs, p.Quiet) ∧ (∃ p ∈ procs, p.status = .blocked) ∧ r.carry.valid = false ∧
      r.nfault = none ∧ r.result = none
  | .faulted => r.nfault.isSome ∧ r.result = none

/-- The ring's registers agree with its Processors; nothing is asked in single-Processor mode. -/
def State.RingConsistent (s : State) : Prop := ∀ r, s.ring = some r → r.Consistent s.procs s.cursor

end Sys2Proof.Machine
end

