-- ==== Sys2Proof/Certificates/Slice0/Obligations.lean ====
section
/-! DEFINITION. The statements about the IntCode block, from the numbered rules of spec/. Each docstring names the rule
it rests on. `p` is always the Processor at the cursor. -/

open Sys2Proof Sys2Proof.Machine

/-! ## Encoding (30_encoding.md, 40_pipeline.md R98 to R100) -/

/-- Decoding an encoded well-formed instruction gives it back, with every raw parameter, and leaves the cells after it
(R75, R92). -/
def Obligations.DecodeOfEncodeIsTheInstruction : Prop :=
  ∀ (i : Instr) (rest : List Cell), i.WellFormed → decode (encode i ++ rest) = .ok (i, rest)

/-- The first encoded cell is `op + 100*m1 + 1000*m2 + 10000*m3`, modes of absent parameters 0, and the other cells are
the raw parameters (R92, R75). -/
def Obligations.CanonicalWordWeighsTheModes : Prop :=
  ∀ i : Instr, ∃ w : Cell, encode i = w :: i.operands.map Operand.raw ∧
    let m := fun k => (i.operands[k]?.map (fun o => o.mode.number)).getD 0
    w = i.opcode.number + 100 * m 0 + 1000 * m 1 + 10000 * m 2

/-- Whatever the decoder accepts is well-formed, has the length of its opcode, and holds the cells it was read from
(R75, R83, R87, R89). -/
def Obligations.DecodedInstructionsAreWellFormed : Prop :=
  ∀ (w : Cell) (cells rest : List Cell) (i : Instr), decode (w :: cells) = .ok (i, rest) →
    i.WellFormed ∧ opcodeField w = i.opcode.number ∧
      w :: cells = w :: i.operands.map Operand.raw ++ rest ∧
      ∀ k o, i.operands[k]? = some o → modeField w (k + 1) = o.mode.number

/-- Two words with the same digits up to those of the opcode's own parameters decode alike: higher digits are neither
checked nor used (R81). -/
def Obligations.DigitsBeyondTheArityAreIgnored : Prop :=
  ∀ (w w' : Int) (op : Opcode), 0 ≤ w → 0 ≤ w' → Opcode.ofNumber? (opcodeField w) = some op →
    w % 10 ^ (op.arity + 2) = w' % 10 ^ (op.arity + 2) → decodeHeader w = decodeHeader w'

/-- Exactly the words whose `w rem 100` is none of the ten opcodes are InvalidOpcode (R85, R77). -/
def Obligations.ExactlyTheTenOpcodesAreValid : Prop :=
  ∀ w : Cell, decodeHeader w = .error .invalidOpcode ↔
    w.tmod 100 ∉ ([1, 2, 3, 4, 5, 6, 7, 8, 9, 99] : List Int)

/-- A negative word has `w rem 100` in -99 .. 0, and every negative word, and the word 0, is InvalidOpcode (R82). -/
def Obligations.NegativeWordsAndZeroAreInvalid : Prop :=
  ∀ w : Int, (w < 0 → -99 ≤ w.tmod 100 ∧ w.tmod 100 ≤ 0) ∧
    (w ≤ 0 → decodeHeader w = .error .invalidOpcode)

/-- Of a valid opcode, the first mode digit outside 0, 1, 2 in parameter order is the one reported (R99, R86). -/
def Obligations.FirstIllegalModeDigitIsReported : Prop :=
  ∀ (w : Cell) (op : Opcode) (i : Nat), Opcode.ofNumber? (w.tmod 100) = some op → 1 ≤ i → i ≤ op.arity →
    (∀ j, 1 ≤ j → j < i → (w.tdiv (10 ^ (j + 1))).tmod 10 ∈ ([0, 1, 2] : List Int)) →
    (w.tdiv (10 ^ (i + 1))).tmod 10 ∉ ([0, 1, 2] : List Int) →
    decodeHeader w = .error (.invalidParameterMode i ((w.tdiv (10 ^ (i + 1))).tmod 10))

/-- With every mode digit legal, mode 1 on the write parameter is InvalidWriteTarget (R100, R87). -/
def Obligations.ImmediateWriteTargetIsRejected : Prop :=
  ∀ (w : Cell) (op : Opcode), Opcode.ofNumber? (w.tmod 100) = some op → op.wparam ≠ 0 →
    (∀ j, 1 ≤ j → j ≤ op.arity → (w.tdiv (10 ^ (j + 1))).tmod 10 ∈ ([0, 1, 2] : List Int)) →
    (w.tdiv (10 ^ (op.wparam + 1))).tmod 10 = 1 →
    decodeHeader w = .error (.invalidWriteTarget op.wparam)

/-- Words written out from the spec's encodings decode to the instructions they stand for: the source's 1002 (R93), one
word of each other opcode (R92, R91), and words with ignored digits (R81). A sanity statement. -/
def Obligations.WrittenOutWordsDecode : Prop :=
  decode [1002, 4, 3, 5] = .ok (.mul ⟨.position, 4⟩ ⟨.immediate, 3⟩ ⟨.position, 5⟩, []) ∧
  decode [21001, 4, 3, 5] = .ok (.add ⟨.position, 4⟩ ⟨.immediate, 3⟩ ⟨.relative, 5⟩, []) ∧
  decode [203, 7, 9] = .ok (.inp ⟨.relative, 7⟩, [9]) ∧
  decode [100004, 0] = .ok (.out ⟨.position, 0⟩, []) ∧
  decode [1105, 1, 7] = .ok (.jt ⟨.immediate, 1⟩ ⟨.immediate, 7⟩, []) ∧
  decode [2006, 1, 7] = .ok (.jf ⟨.position, 1⟩ ⟨.relative, 7⟩, []) ∧
  decode [107, 0, 23, 25] = .ok (.lt ⟨.immediate, 0⟩ ⟨.position, 23⟩ ⟨.position, 25⟩, []) ∧
  decode [1008, 9, 8, 10] = .ok (.eq ⟨.position, 9⟩ ⟨.immediate, 8⟩ ⟨.position, 10⟩, []) ∧
  decode [109, 19] = .ok (.arb ⟨.immediate, 19⟩, []) ∧
  decode [30099] = .ok (.hlt, [])

/-! ## Memory, loading and operands (20_memory.md, 40_pipeline.md R102 to R105) -/

/-- `new(image, inputs)` gives every reset value: ip and rb 0, Running, no fault, no last_output, InQ the inputs, OutQ
empty, the image at 0 .. L-1 and 0 from there on (R201, R54). An image longer than MEM_CAPACITY, or with a value that
does not fit in a cell, builds nothing, and the empty image, all zero, makes the first step InvalidOpcode (R54). Image
and inputs are otherwise sequences of values of a cell (R54, R27). -/
def Obligations.ConstructionGivesTheResetValues : Prop :=
  ∀ (cfg : Config) (image inputs : List Cell), (∀ v ∈ inputs, fitsW cfg v) →
    (image.length ≤ cfg.memCapacity → (∀ v ∈ image, fitsW cfg v) →
      ∃ s p, State.new cfg image inputs = .ok s ∧ s.cfg = cfg ∧ s.current = some p ∧ s.procs = [p] ∧ s.ring = none ∧
        p.ip = 0 ∧ p.rb = 0 ∧ p.status = .running ∧ p.fault = none ∧ p.lastOutput = none ∧ p.inQ = inputs ∧
        p.outQ = [] ∧ (∀ a, a < image.length → Memory.read p.mem a = image.getD a 0) ∧
        (∀ a, image.length ≤ a → Memory.read p.mem a = 0) ∧
        (image = [] → 1 ≤ cfg.memCapacity → ∃ s', step s = .next s' ∧
          s'.outcome = some (.fault ⟨.invalidOpcode, some 0, some 0, 0, none⟩))) ∧
    (cfg.memCapacity < image.length ∨ (∃ v ∈ image, ¬ fitsW cfg v) →
      State.new cfg image inputs = .error .imageError)

/-- `new(image, PHASES)` answers a machine where the image loads and N >= 1, whatever cell values the phases have: every
scheduler register has its reset value, and there are N Processors with the reset values of R201, each with its own copy
of the image, but for InQ, which is exactly the Processor's phase (R31, R176, R202). An image that does not load is
ImageError, and N = 0 is refused (R176, R168). -/
def Obligations.NetworkConstructionGivesTheResetValues : Prop :=
  ∀ (cfg : Config) (image : List Cell) (phases : Vector Cell cfg.ringSize), (∀ v ∈ phases.toList, fitsW cfg v) →
    (image.length ≤ cfg.memCapacity → (∀ v ∈ image, fitsW cfg v) → 1 ≤ cfg.ringSize →
      ∃ s, State.newNetwork cfg image phases = .ok s ∧ s.cfg = cfg ∧ s.cursor = 0 ∧ s.procs.length = cfg.ringSize ∧
        (∃ r, s.ring = some r ∧ r.carry = ⟨true, cfg.seed⟩ ∧ r.passProgress = false ∧ r.nstatus = .running ∧
          r.nfault = none ∧ r.result = none) ∧
        ∀ (k : Nat) (hk : k < cfg.ringSize), ∃ p, s.procs[k]? = some p ∧ p.inQ = [phases[k]] ∧ p.ip = 0 ∧ p.rb = 0 ∧
          p.status = .running ∧ p.fault = none ∧ p.lastOutput = none ∧ p.outQ = [] ∧
          ∀ a, Memory.read p.mem a = image.getD a 0) ∧
    (1 ≤ cfg.ringSize → cfg.memCapacity < image.length ∨ (∃ v ∈ image, ¬ fitsW cfg v) →
      State.newNetwork cfg image phases = .error .imageError) ∧
    (cfg.ringSize = 0 → (∃ e, State.newNetwork cfg image phases = .error e) ∧
      (image.length ≤ cfg.memCapacity → (∀ v ∈ image, fitsW cfg v) →
        State.newNetwork cfg image phases = .error .noProcessors))

/-- A cell reads back what was last written to it, every other cell reads as before, and the canonical form is kept, in
which two memories that read alike are the same (R52, R53, R62). -/
def Obligations.MemoryReadsBackTheLastWrite : Prop :=
  ∀ (m m' : Memory) (a : Nat) (v : Cell), Memory.wf m →
    Memory.wf (Memory.write m a v) ∧ Memory.read (Memory.write m a v) a = v ∧
      (∀ k, k ≠ a → Memory.read (Memory.write m a v) k = Memory.read m k) ∧
      (Memory.wf m' → (∀ k, Memory.read m k = Memory.read m' k) → m = m')

/-- `read(i)` by mode: Position and Relative read the cell at the exact address or raise MemoryFault with that address,
Immediate is the raw parameter itself and cannot fault (R102, R103, R104). -/
def Obligations.ReadOperandFollowsItsMode : Prop :=
  ∀ (cfg : Config) (p : Processor) (i : Nat) (raw : Cell),
    p.readOperand cfg i ⟨.immediate, raw⟩ = .ok raw ∧
    (0 ≤ raw ∧ raw < cfg.memCapacity →
      p.readOperand cfg i ⟨.position, raw⟩ = .ok (Memory.read p.mem raw.toNat)) ∧
    (¬ (0 ≤ raw ∧ raw < cfg.memCapacity) →
      p.readOperand cfg i ⟨.position, raw⟩ = .error ⟨.memoryFault, i, some raw⟩) ∧
    (0 ≤ p.rb + raw ∧ p.rb + raw < cfg.memCapacity →
      p.readOperand cfg i ⟨.relative, raw⟩ = .ok (Memory.read p.mem (p.rb + raw).toNat)) ∧
    (¬ (0 ≤ p.rb + raw ∧ p.rb + raw < cfg.memCapacity) →
      p.readOperand cfg i ⟨.relative, raw⟩ = .error ⟨.memoryFault, i, some (p.rb + raw)⟩)

/-- `waddr(j)` by mode: the raw parameter or the exact sum with rb, bounds-checked; it reads no memory (R105). -/
def Obligations.WriteAddressFollowsItsMode : Prop :=
  ∀ (cfg : Config) (p : Processor) (j : Nat) (raw : Cell),
    (0 ≤ raw ∧ raw < cfg.memCapacity → p.writeAddr cfg j ⟨.position, raw⟩ = .ok raw) ∧
    (¬ (0 ≤ raw ∧ raw < cfg.memCapacity) →
      p.writeAddr cfg j ⟨.position, raw⟩ = .error ⟨.memoryFault, j, some raw⟩) ∧
    (0 ≤ p.rb + raw ∧ p.rb + raw < cfg.memCapacity →
      p.writeAddr cfg j ⟨.relative, raw⟩ = .ok (p.rb + raw)) ∧
    (¬ (0 ≤ p.rb + raw ∧ p.rb + raw < cfg.memCapacity) →
      p.writeAddr cfg j ⟨.relative, raw⟩ = .error ⟨.memoryFault, j, some (p.rb + raw)⟩) ∧
    (∀ (m : Memory) (mode : Mode), ({ p with mem := m }).writeAddr cfg j ⟨mode, raw⟩ = p.writeAddr cfg j ⟨mode, raw⟩)

/-! ## What each instruction does, and that it completes (41 to 44) -/

/-- ADD (R125, R107, R108): with readable operands and a legal destination it stores the exact sum and advances ip by
4; a sum that does not fit is ArithmeticOverflow with the exact sum under `fault`, and under `wrap` the value of a
cell that is congruent to it modulo 2^CELL_W is stored. -/
def Obligations.AddStoresTheSum : Prop :=
  ∀ (s : State) (p : Processor) (a b dst : Operand) (x y : Cell) (d : Int), 1 ≤ s.cfg.cellW → s.current = some p →
    p.readOperand s.cfg 1 a = .ok x → p.readOperand s.cfg 2 b = .ok y → p.writeAddr s.cfg 3 dst = .ok d →
    (fitsW s.cfg (x + y) → exec (.add a b dst) s = .next (s.commit
      { p with mem := Memory.write p.mem d.toNat (x + y), ip := p.ip + 4 } (.progress none))) ∧
    (¬ fitsW s.cfg (x + y) → s.cfg.overflowPolicy = .fault → exec (.add a b dst) s =
      .next (s.takeFault p ⟨.arithmeticOverflow, 0, some (x + y)⟩)) ∧
    (¬ fitsW s.cfg (x + y) → s.cfg.overflowPolicy = .wrap → ∃ r : Cell, fitsW s.cfg r ∧
      r % 2 ^ s.cfg.cellW = (x + y) % 2 ^ s.cfg.cellW ∧ exec (.add a b dst) s = .next (s.commit
        { p with mem := Memory.write p.mem d.toNat r, ip := p.ip + 4 } (.progress none)))

/-- MUL (R126, R107, R108): with readable operands and a legal destination it stores the exact product and advances ip
by 4; a product that does not fit is ArithmeticOverflow with the exact product under `fault`, and under `wrap` the
value of a cell that is congruent to it modulo 2^CELL_W is stored. -/
def Obligations.MulStoresTheProduct : Prop :=
  ∀ (s : State) (p : Processor) (a b dst : Operand) (x y : Cell) (d : Int), 1 ≤ s.cfg.cellW → s.current = some p →
    p.readOperand s.cfg 1 a = .ok x → p.readOperand s.cfg 2 b = .ok y → p.writeAddr s.cfg 3 dst = .ok d →
    (fitsW s.cfg (x * y) → exec (.mul a b dst) s = .next (s.commit
      { p with mem := Memory.write p.mem d.toNat (x * y), ip := p.ip + 4 } (.progress none))) ∧
    (¬ fitsW s.cfg (x * y) → s.cfg.overflowPolicy = .fault → exec (.mul a b dst) s =
      .next (s.takeFault p ⟨.arithmeticOverflow, 0, some (x * y)⟩)) ∧
    (¬ fitsW s.cfg (x * y) → s.cfg.overflowPolicy = .wrap → ∃ r : Cell, fitsW s.cfg r ∧
      r % 2 ^ s.cfg.cellW = (x * y) % 2 ^ s.cfg.cellW ∧ exec (.mul a b dst) s = .next (s.commit
        { p with mem := Memory.write p.mem d.toNat r, ip := p.ip + 4 } (.progress none)))

/-- LT (R127): 1 if the first operand is less than the second as signed integers, else 0; it never overflows. -/
def Obligations.LessThanStoresOneOrZero : Prop :=
  ∀ (s : State) (p : Processor) (a b dst : Operand) (x y : Cell) (d : Int), s.current = some p →
    p.readOperand s.cfg 1 a = .ok x → p.readOperand s.cfg 2 b = .ok y → p.writeAddr s.cfg 3 dst = .ok d →
    exec (.lt a b dst) s = .next (s.commit
      { p with mem := Memory.write p.mem d.toNat (if x < y then 1 else 0), ip := p.ip + 4 }
      (.progress none))

/-- EQ (R128): 1 if the operands are the same value, else 0; it never overflows. -/
def Obligations.EqualsStoresOneOrZero : Prop :=
  ∀ (s : State) (p : Processor) (a b dst : Operand) (x y : Cell) (d : Int), s.current = some p →
    p.readOperand s.cfg 1 a = .ok x → p.readOperand s.cfg 2 b = .ok y → p.writeAddr s.cfg 3 dst = .ok d →
    exec (.eq a b dst) s = .next (s.commit
      { p with mem := Memory.write p.mem d.toNat (if x = y then 1 else 0), ip := p.ip + 4 }
      (.progress none))

/-- IN (R135): with a legal destination it pops the head of InQ into it, advances ip by 2 and is Running; on an empty
InQ it is Starved, and only status changes, to Blocked. A bad destination faults even when InQ is empty. -/
def Obligations.InputStoresTheHeadOfTheQueue : Prop :=
  ∀ (s : State) (p : Processor) (dst : Operand), s.current = some p →
    (∀ d v q, p.writeAddr s.cfg 1 dst = .ok d → p.inQ = v :: q → exec (.inp dst) s = .next (s.commit
      { p with inQ := q, mem := Memory.write p.mem d.toNat v, ip := p.ip + 2, status := .running }
      (.progress none))) ∧
    (∀ d, p.writeAddr s.cfg 1 dst = .ok d → p.inQ = [] →
      exec (.inp dst) s = .next (s.commit { p with status := .blocked } .starved)) ∧
    (∀ r, p.writeAddr s.cfg 1 dst = .error r → exec (.inp dst) s = .next (s.takeFault p r))

/-- OUT (R136, R167): the operand is pushed at the tail of OutQ, becomes last_output and is reported; ip advances by 2.
Onto a full OutQ, which only a finite QUEUE_DEPTH has, it is QueueOverflow. -/
def Obligations.OutputPushesTheOperand : Prop :=
  ∀ (s : State) (p : Processor) (v : Operand) (x : Cell), s.current = some p → p.readOperand s.cfg 1 v = .ok x →
    ((∀ d, s.cfg.queueDepth = some d → p.outQ.length < d) → exec (.out v) s = .next (s.commit
      { p with outQ := p.outQ ++ [x], lastOutput := some x, ip := p.ip + 2 } (.progress (some x)))) ∧
    (∀ d, s.cfg.queueDepth = some d → d ≤ p.outQ.length →
      exec (.out v) s = .next (s.takeFault p ⟨.queueOverflow, 0, none⟩))

/-- JT (R145): a condition other than 0 jumps to the target, which faults where it cannot be read or is negative; the
condition 0 advances ip by 3 whatever the target operand is. -/
def Obligations.JumpIfTrueTakesANonzeroCondition : Prop :=
  ∀ (s : State) (p : Processor) (c t : Operand) (x : Cell), s.current = some p → p.readOperand s.cfg 1 c = .ok x →
    (x = 0 → exec (.jt c t) s = .next (s.commit { p with ip := p.ip + 3 } (.progress none))) ∧
    (x ≠ 0 → ∀ y, p.readOperand s.cfg 2 t = .ok y →
      (0 ≤ y → exec (.jt c t) s = .next (s.commit { p with ip := y.toNat } (.progress none))) ∧
      (y < 0 → exec (.jt c t) s = .next (s.takeFault p ⟨.memoryFault, 2, some y⟩))) ∧
    (x ≠ 0 → ∀ r, p.readOperand s.cfg 2 t = .error r → exec (.jt c t) s = .next (s.takeFault p r))

/-- JF (R146): the condition 0 jumps to the target, which faults where it cannot be read or is negative; a condition
other than 0 advances ip by 3 whatever the target operand is. -/
def Obligations.JumpIfFalseTakesAZeroCondition : Prop :=
  ∀ (s : State) (p : Processor) (c t : Operand) (x : Cell), s.current = some p → p.readOperand s.cfg 1 c = .ok x →
    (x ≠ 0 → exec (.jf c t) s = .next (s.commit { p with ip := p.ip + 3 } (.progress none))) ∧
    (x = 0 → ∀ y, p.readOperand s.cfg 2 t = .ok y →
      (0 ≤ y → exec (.jf c t) s = .next (s.commit { p with ip := y.toNat } (.progress none))) ∧
      (y < 0 → exec (.jf c t) s = .next (s.takeFault p ⟨.memoryFault, 2, some y⟩))) ∧
    (x = 0 → ∀ r, p.readOperand s.cfg 2 t = .error r → exec (.jf c t) s = .next (s.takeFault p r))

/-- HLT (R147): status becomes Halted, nothing else changes, and it is progress. -/
def Obligations.HaltStopsTheProcessor : Prop :=
  ∀ (s : State) (p : Processor), s.current = some p →
    exec .hlt s = .next (s.commit { p with status := .halted } (.progress none))

/-- ARB (R155, R108): rb becomes the exact sum with the operand, read with the old rb; ip advances by 2; a sum that does
not fit is ArithmeticOverflow under `fault`, and under `wrap` rb becomes the value of a cell that is congruent to it
modulo 2^CELL_W. -/
def Obligations.AdjustRelativeBaseAddsTheOperand : Prop :=
  ∀ (s : State) (p : Processor) (v : Operand) (x : Cell), 1 ≤ s.cfg.cellW → s.current = some p →
    p.readOperand s.cfg 1 v = .ok x →
    (fitsW s.cfg (p.rb + x) →
      exec (.arb v) s = .next (s.commit { p with rb := p.rb + x, ip := p.ip + 2 } (.progress none))) ∧
    (¬ fitsW s.cfg (p.rb + x) → s.cfg.overflowPolicy = .fault → exec (.arb v) s =
      .next (s.takeFault p ⟨.arithmeticOverflow, 0, some (p.rb + x)⟩)) ∧
    (¬ fitsW s.cfg (p.rb + x) → s.cfg.overflowPolicy = .wrap → ∃ r : Cell, fitsW s.cfg r ∧
      r % 2 ^ s.cfg.cellW = (p.rb + x) % 2 ^ s.cfg.cellW ∧
      exec (.arb v) s = .next (s.commit { p with rb := r, ip := p.ip + 2 } (.progress none)))

/-- Operands are evaluated in parameter order and the first that faults is reported, before the ALU and the queue (R106,
R170 item 6); IN's and the jumps' later operands are in their own statements. -/
def Obligations.OperandFaultsAreReportedInOrder : Prop :=
  ∀ (s : State) (p : Processor) (a b dst : Operand) (i : Instr) (r : Raise), s.current = some p → dst.isTarget →
    (i ∈ [Instr.add a b dst, .mul a b dst, .lt a b dst, .eq a b dst, .out a, .arb a, .jt a b, .jf a b] →
      p.readOperand s.cfg 1 a = .error r → exec i s = .next (s.takeFault p r)) ∧
    (i ∈ [Instr.add a b dst, .mul a b dst, .lt a b dst, .eq a b dst] →
      (∀ x, p.readOperand s.cfg 1 a = .ok x → p.readOperand s.cfg 2 b = .error r →
        exec i s = .next (s.takeFault p r)) ∧
      (∀ x y, p.readOperand s.cfg 1 a = .ok x → p.readOperand s.cfg 2 b = .ok y → p.writeAddr s.cfg 3 dst = .error r →
        exec i s = .next (s.takeFault p r)))

/-- An instruction that is not well-formed takes InvalidWriteTarget on its write parameter, whatever its other operands.
The decoder gives no such instruction; that `exec` faults on one is the model's reading of R100 (log 11). -/
def Obligations.IllFormedInstructionsTakeInvalidWriteTarget : Prop :=
  ∀ (s : State) (p : Processor) (i : Instr) (j : Nat) (w : Operand), s.current = some p →
    i.writeParam = some (j, w) → w.mode = .immediate →
    exec i s = .next (s.takeFault p ⟨.invalidWriteTarget, j, none⟩)

/-! ## What each instruction leaves unchanged -/

/-- ADD, MUL, LT, EQ: everything but one cell, ip, status and the fault record is the same, and every cell but the one
`targetAddr` names reads as before (R34, R110). There is no other register, flag or accumulator (R20, R28). -/
def Obligations.BinaryInstructionFrame : Prop :=
  ∀ (s s' : State) (p : Processor) (a b dst : Operand) (i : Instr), s.current = some p →
    i ∈ [Instr.add a b dst, .mul a b dst, .lt a b dst, .eq a b dst] → exec i s = .next s' →
    s.SameAround s' ∧ ∃ p', s'.current = some p' ∧ p'.rb = p.rb ∧ p'.inQ = p.inQ ∧ p'.outQ = p.outQ ∧
      p'.lastOutput = p.lastOutput ∧ (p'.status ≠ .faulted → p'.status = p.status ∧ p'.fault = p.fault) ∧
      (∀ d : Int, p.targetAddr dst = some d → ∀ k : Nat, (k : Int) ≠ d →
        Memory.read p'.mem k = Memory.read p.mem k) ∧
      (p.targetAddr dst = none → p'.mem = p.mem)

/-- IN: every register but InQ, ip, status and the fault record is the same; InQ only loses its head; every cell but the
one `targetAddr` names reads as before, and a Starved IN changes none (R135). -/
def Obligations.InputFrame : Prop :=
  ∀ (s s' : State) (p : Processor) (dst : Operand), s.current = some p → exec (.inp dst) s = .next s' →
    s.SameAround s' ∧ ∃ p', s'.current = some p' ∧ p'.rb = p.rb ∧ p'.outQ = p.outQ ∧ p'.lastOutput = p.lastOutput ∧
      (p'.inQ = p.inQ ∨ p'.inQ = p.inQ.tail) ∧ (p'.status ≠ .faulted → p'.fault = p.fault) ∧
      (∀ d : Int, p.targetAddr dst = some d → ∀ k : Nat, (k : Int) ≠ d →
        Memory.read p'.mem k = Memory.read p.mem k) ∧
      (s'.outcome ≠ some (.progress none) → p'.mem = p.mem ∧ p'.inQ = p.inQ ∧ p'.ip = p.ip)

/-- OUT: rb, InQ and every cell of memory are the same, and status and the fault record unless it faults (R136). -/
def Obligations.OutputFrame : Prop :=
  ∀ (s s' : State) (p : Processor) (v : Operand), s.current = some p → exec (.out v) s = .next s' →
    s.SameAround s' ∧ ∃ p', s'.current = some p' ∧ p'.rb = p.rb ∧ p'.inQ = p.inQ ∧
      (∀ k : Nat, Memory.read p'.mem k = Memory.read p.mem k) ∧
      (p'.status ≠ .faulted → p'.status = p.status ∧ p'.fault = p.fault) ∧
      (p'.status = .faulted → p.status ≠ .faulted → p'.outQ = p.outQ ∧ p'.lastOutput = p.lastOutput)

/-- JT, JF, ARB and HLT store nothing and touch no queue; only ARB changes rb; only HLT changes status where there is no
fault (R145, R146, R147, R155). -/
def Obligations.JumpHaltAndRelativeBaseFrame : Prop :=
  ∀ (s s' : State) (p : Processor) (a b : Operand) (i : Instr), s.current = some p →
    i ∈ [Instr.jt a b, .jf a b, .arb a, .hlt] → exec i s = .next s' →
    s.SameAround s' ∧ ∃ p', s'.current = some p' ∧ p'.inQ = p.inQ ∧ p'.outQ = p.outQ ∧
      p'.lastOutput = p.lastOutput ∧ (∀ k : Nat, Memory.read p'.mem k = Memory.read p.mem k) ∧
      (i ≠ .arb a → p'.rb = p.rb) ∧
      (p'.status ≠ .faulted → p'.fault = p.fault ∧ (i ≠ .hlt → p'.status = p.status)) ∧
      (i = .hlt → p'.ip = p.ip ∧ p'.fault = p.fault)

/-- Whole machine: only ARB writes rb (R22), only OUT writes last_output and OutQ (R26, R27), only IN pops InQ (R27),
and only ADD, MUL, IN, LT and EQ write memory (R34). -/
def Obligations.OnlyTheNamedInstructionsWrite : Prop :=
  ∀ (s s' : State) (p : Processor) (i : Instr), s.current = some p → exec i s = .next s' →
    ∃ p', s'.current = some p' ∧
      (p'.rb ≠ p.rb → i.opcode = .arb) ∧
      (p'.lastOutput ≠ p.lastOutput ∨ p'.outQ ≠ p.outQ → i.opcode = .out) ∧
      (p'.inQ ≠ p.inQ → i.opcode = .inp) ∧
      (p'.mem ≠ p.mem → i.opcode ∈ [Opcode.add, .mul, .inp, .lt, .eq])

/-! ## The step (40_pipeline.md R95 to R114, 60_exceptions.md R161) -/

/-- Single-Processor mode: a step of the block is the step of its Processor, and where the cells at ip decode to an
instruction that lies inside the capacity, that of a Running or Blocked Processor is the instruction at that state (R95,
R96, R137). Four cells are the longest (R75). -/
def Obligations.StepRunsTheDecodedInstruction : Prop :=
  ∀ (s : State) (p : Processor), s.ring = none → s.current = some p →
    step s = s.stepCurrent ∧
    ∀ (i : Instr) (rest : List Cell), p.status.Runs → decode (p.window 4) = .ok (i, rest) →
      p.ip + i.length ≤ s.cfg.memCapacity → step s = exec i s

/-- Network mode: a slot is the injection of a valid carry into the Processor at the cursor, then exactly one step of
that Processor, then what `endSlot` adds; and where the cells at ip decode to an instruction inside the capacity, the
step of a Running or Blocked Processor is that instruction (R178, R186). -/
def Obligations.SlotRunsTheDecodedInstruction : Prop :=
  ∀ (s : State) (r : Ring) (p : Processor), s.ring = some r → r.nstatus = .running → s.current = some p →
    (r.carry.valid = false → ∃ s₁, s.stepCurrent = .next s₁ ∧ step s = .next (s₁.endSlot r) ∧
      ∀ (i : Instr) (rest : List Cell), p.status.Runs → decode (p.window 4) = .ok (i, rest) →
        p.ip + i.length ≤ s.cfg.memCapacity → exec i s = .next s₁) ∧
    (r.carry.valid = true → s.CarryFits r →
      let p₁ : Processor :=
        { p with inQ := p.inQ ++ [r.carry.value], status := if p.status = .blocked then .running else p.status }
      let r₁ : Ring := { r with carry := ⟨false, r.carry.value⟩ }
      let t : State := { s with procs := s.procs.set s.cursor p₁, ring := some r₁ }
      ∃ s₁, t.stepCurrent = .next s₁ ∧ step s = .next (s₁.endSlot r₁) ∧
        ∀ (i : Instr) (rest : List Cell), p.status.Runs → decode (p.window 4) = .ok (i, rest) →
          p.ip + i.length ≤ s.cfg.memCapacity → exec i t = .next s₁)

/-- GATE (R96), in either mode: a step of a Halted or Faulted Processor is Idle: no read, no write, ip unchanged, only
the outcome port says Idle. A Running or Blocked one goes on to FETCH, and takes the fault of its fetch or runs the
instruction fetched. -/
def Obligations.OnlyRunningAndBlockedGoOnToFetch : Prop :=
  ∀ (s : State) (p : Processor), s.current = some p →
    (p.status = .halted ∨ p.status = .faulted → s.stepCurrent = .next { s with outcome := some .idle }) ∧
    (p.status = .running ∨ p.status = .blocked →
      (∀ r, p.fetch s.cfg = .error r → s.stepCurrent = .next (s.takeFault p r)) ∧
      (∀ i, p.fetch s.cfg = .ok i → s.stepCurrent = exec i s))

/-- FETCH (R97), in either mode: the word that is decoded is the cell at ip, so that what the fetch gives is the
instruction of that word, or the fault of its rejection; an ip at or above MEM_CAPACITY is MemoryFault with param 0,
word none and detail ip. -/
def Obligations.FetchReadsTheWordAtIp : Prop :=
  ∀ (s : State) (p : Processor), s.current = some p →
    (p.ip < s.cfg.memCapacity →
      (∀ e, decodeHeader (Memory.read p.mem p.ip) = .error e → p.fetch s.cfg = .error (raiseOfDecode e)) ∧
      (∀ i, p.fetch s.cfg = .ok i → ∃ h, decodeHeader (Memory.read p.mem p.ip) = .ok h ∧ i.opcode = h.op ∧
        i.operands.map Operand.mode = h.modes)) ∧
    (s.cfg.memCapacity ≤ p.ip → p.fetch s.cfg = .error ⟨.memoryFault, 0, some p.ip⟩ ∧
      (p.status.Runs → s.stepCurrent = .next (s.commit
        { p with status := .faulted, fault := some ⟨.memoryFault, some p.ip, none, 0, some p.ip⟩ }
        (.fault ⟨.memoryFault, some p.ip, none, 0, some p.ip⟩))))

/-- PARAMETER FETCH (R101), in either mode: the first parameter cell beyond the capacity is MemoryFault with its index
and address, even where no operand of this execution needs it. -/
def Obligations.ParameterBeyondTheCapacityFaults : Prop :=
  ∀ (s : State) (p : Processor) (h : Header) (k : Nat), s.current = some p → p.status.Runs →
    decodeHeader (Memory.read p.mem p.ip) = .ok h → 1 ≤ k → k ≤ h.op.arity → p.ip + k = s.cfg.memCapacity →
    s.stepCurrent = .next (s.takeFault p ⟨.memoryFault, k, some ((p.ip + k : Nat) : Int)⟩)

/-- DECODE (R98 to R100, R162 to R164), in either mode: a word the decoder rejects is the fault of its kind, with the
word recorded, whatever the parameter cells. -/
def Obligations.RejectedWordTakesItsFault : Prop :=
  ∀ (s : State) (p : Processor) (w : Cell), s.current = some p → p.status.Runs →
    p.ip < s.cfg.memCapacity → Memory.read p.mem p.ip = w →
    (decodeHeader w = .error .invalidOpcode →
      ∃ s', s.stepCurrent = .next s' ∧ s'.outcome = some (.fault ⟨.invalidOpcode, some p.ip, some w, 0, none⟩)) ∧
    (∀ i d, decodeHeader w = .error (.invalidParameterMode i d) →
      ∃ s', s.stepCurrent = .next s' ∧
        s'.outcome = some (.fault ⟨.invalidParameterMode, some p.ip, some w, i, some d⟩)) ∧
    (∀ j, decodeHeader w = .error (.invalidWriteTarget j) →
      ∃ s', s.stepCurrent = .next s' ∧
        s'.outcome = some (.fault ⟨.invalidWriteTarget, some p.ip, some w, j, none⟩))

/-- Fault entry is precise (R161, R110): whatever instruction or stage raises it, ip, rb, M, the queues and last_output
are as before the step, status is Faulted, and the record reported is the one written, with the ip of the step. -/
def Obligations.FaultEntryIsPrecise : Prop :=
  ∀ (s s' : State) (f : FaultRecord), s.stepCurrent = .next s' → s'.outcome = some (.fault f) →
    s.SameAround s' ∧ ∃ p, s.current = some p ∧ p.status.Runs ∧ f.ip = some p.ip ∧
      (f.word = none ↔ s.cfg.memCapacity ≤ p.ip) ∧ (∀ w, f.word = some w → w = Memory.read p.mem p.ip) ∧
      s'.current = some { p with status := .faulted, fault := some f }

/-- A step writes at most one cell, pops at most one value of InQ and pushes at most one onto OutQ (R110): a cell that
reads otherwise after the step is the one the write parameter of the fetched instruction names, and the step is then
Progress. So all of memory is kept by an instruction without a write parameter, and by a step that is Starved, Idle or
Fault. -/
def Obligations.StepWritesAtMostOneOfEach : Prop :=
  ∀ (s s' : State), s.stepCurrent = .next s' → ∃ p p', s.current = some p ∧ s'.current = some p' ∧
    (∀ k : Nat, Memory.read p'.mem k ≠ Memory.read p.mem k → ∃ i j w, p.fetch s.cfg = .ok i ∧
      i.writeParam = some (j, w) ∧ p.targetAddr w = some (k : Int) ∧ s'.outcome = some (.progress none)) ∧
    (p'.inQ = p.inQ ∨ p'.inQ = p.inQ.tail) ∧ (p'.outQ = p.outQ ∨ ∃ v, p'.outQ = p.outQ ++ [v])

/-- The outcome tells the transition (R111, R174): Starved exactly leaves Blocked, Fault leaves Faulted, Idle keeps the
status, Progress leaves Running or, for HLT alone, Halted. The start state is one a constructed machine can be in. -/
def Obligations.OutcomeTellsTheStatus : Prop :=
  ∀ (s s' : State) (p : Processor), s.WF → s.current = some p → s.stepCurrent = .next s' → ∃ p' o,
    s'.current = some p' ∧ s'.outcome = some o ∧
      (o = .starved ↔ p'.status = .blocked) ∧
      ((∃ f, o = .fault f) ↔ p'.status = .faulted ∧ p.status ≠ .faulted) ∧
      (o = .idle ↔ p.status = .halted ∨ p.status = .faulted) ∧
      (o = .idle → p' = p) ∧
      (o ≠ .idle → (p'.status = .halted ↔ p.fetch s.cfg = .ok .hlt))

/-- A Blocked Processor runs its IN again: Starved and unchanged while InQ is empty, and after an injection the next
step completes the IN (R137, R186). The start state is one a constructed machine can be in. -/
def Obligations.BlockedInputRunsAgain : Prop :=
  ∀ (s : State) (p : Processor) (v : Cell), s.WF → s.ring = none → s.current = some p → p.status = .blocked →
    fitsW s.cfg v → step s = .next { s with outcome := some .starved } ∧
    (s.cfg.queueDepth ≠ some 0 → ∃ w d s₁ s₂, p.fetch s.cfg = .ok (.inp w) ∧ p.writeAddr s.cfg 1 w = .ok d ∧
      s.injectInput v = .ok s₁ ∧ step s₁ = .next s₂ ∧ s₂.outcome = some (.progress none) ∧
      s₂.current = some { p with status := .running, ip := p.ip + 2, mem := Memory.write p.mem d.toNat v })

/-- A write is seen by the very next fetch, and ip does not depend on the word written (R66, R114, R207): whichever of
ADD, MUL, IN, LT and EQ stores a value, wherever it stores it, the next fetch is that of the cells from the new ip on
with the stored cell replaced. -/
def Obligations.NextFetchSeesTheWrite : Prop :=
  ∀ (s : State) (p : Processor) (i : Instr) (j : Nat) (w : Operand) (d : Int) (v : Cell), s.current = some p →
    Memory.wf p.mem → i.writeParam = some (j, w) → p.writeAddr s.cfg j w = .ok d → p.storedValue s.cfg i = some v →
    ∃ s' p', exec i s = .next s' ∧ s'.current = some p' ∧ p'.ip = p.ip + i.length ∧
      let cells := (List.range 4).map fun k =>
        if ((p'.ip + k : Nat) : Int) = d then v else Memory.read p.mem (p'.ip + k)
      (∀ i' rest, decode cells = .ok (i', rest) → p'.ip + i'.length ≤ s.cfg.memCapacity →
        p'.fetch s.cfg = .ok i') ∧
      (∀ e, decodeHeader (cells.headD 0) = .error e → p'.ip < s.cfg.memCapacity →
        p'.fetch s.cfg = .error (raiseOfDecode e))

/-- A step is a function of M, ip, rb, status and InQ alone (R113): two Processors that agree on these, however else
they differ, report the same outcome and agree again, and push the same. With a finite QUEUE_DEPTH, whether OutQ is
full is needed too (R167). -/
def Obligations.StepDependsOnlyOnTheNamedState : Prop :=
  ∀ (s t s' t' : State) (p q : Processor), s.cfg = t.cfg → queueFull s.cfg p.outQ = queueFull s.cfg q.outQ →
    s.current = some p → t.current = some q → p.mem = q.mem → p.ip = q.ip → p.rb = q.rb → p.status = q.status →
    p.inQ = q.inQ →
    s.stepCurrent = .next s' → t.stepCurrent = .next t' → s'.outcome = t'.outcome ∧ ∃ p' q',
      s'.current = some p' ∧ t'.current = some q' ∧ p'.mem = q'.mem ∧ p'.ip = q'.ip ∧ p'.rb = q'.rb ∧
      p'.status = q'.status ∧ p'.inQ = q'.inQ ∧
      ∃ pushed, p'.outQ = p.outQ ++ pushed ∧ q'.outQ = q.outQ ++ pushed

/-! ## Invariants -/

/-- The reset machine meets the invariant. That reset is single-Processor mode with an empty image is the model's choice
(log 5). -/
def Obligations.ResetIsWellFormed : Prop := State.reset.WF ∧ State.reset.RingConsistent

/-- Every machine that construction gives meets both invariants, in either mode (R176, R201, R202). -/
def Obligations.ConstructionGivesWellFormedMachines : Prop :=
  ∀ (cfg : Config) (image inputs : List Cell) (phases : Vector Cell cfg.ringSize) (s : State), cfg.Valid →
    State.new cfg image inputs = .ok s ∨ State.newNetwork cfg image phases = .ok s → s.WF ∧ s.RingConsistent

/-- Every step keeps the machine well-formed: every value in the range of its cell, ip in range, memory canonical and
inside the capacity, Blocked only at an IN with InQ empty, a fault record exactly when Faulted, OutQ within its depth,
the cursor naming a Processor. -/
def Obligations.EveryStepKeepsTheMachineWellFormed : Prop :=
  ∀ s s' : State, s.WF → step s = .next s' → s'.WF

/-- Every slot keeps the scheduler's registers true of its Processors: what NRunning, NDone, NDeadlocked and NFaulted
say, and what a pass without progress has left (R179 to R182). -/
def Obligations.EverySlotKeepsTheRingConsistent : Prop :=
  ∀ s s' : State, s.WF → s.RingConsistent → step s = .next s' → s'.RingConsistent

/-- Injecting and draining keep the machine well-formed (R186, R187). -/
def Obligations.HostActionsKeepTheMachineWellFormed : Prop :=
  ∀ (s s' : State) (v : Cell) (out : List Cell), s.WF →
    s.injectInput v = .ok s' ∨ s.drainOutput = .ok (out, s') → s'.WF

/-- Halted and Faulted are terminal (R24, R171, R174): no step of the block and no host action changes such a Processor,
but that values may be pushed onto its InQ and its OutQ drained; its fault record stays. -/
def Obligations.StoppedProcessorsStayStopped : Prop :=
  ∀ (s s' : State) (e : Event) (k : Nat) (p : Processor), s.after e = some s' → s.procs[k]? = some p →
    p.status = .halted ∨ p.status = .faulted →
    ∃ p' added, s'.procs[k]? = some p' ∧ p' = { p with inQ := p.inQ ++ added, outQ := p'.outQ } ∧
      (p'.outQ = p.outQ ∨ e = .drain ∧ p'.outQ = [])

/-! ## The scheduler (60_exceptions.md R176 to R184, R208) -/

/-- A slot changes no Processor but the one at the cursor, and no parameter (R56, R177, R196). -/
def Obligations.OtherProcessorsKeepTheirState : Prop :=
  ∀ s s' : State, step s = .next s' → s'.cfg = s.cfg ∧ s'.procs.length = s.procs.length ∧
    ∀ k, k ≠ s.cursor → s'.procs[k]? = s.procs[k]?

/-- The cursor moves on by one, round the ring, after every slot that does not stop the network by a fault: every slot
whose carry fits and whose step is no Fault, those that end in NRunning, NDone, NDeadlocked or NoOutput alike (R177,
R178). That the cursor does not move in single-Processor mode is the model's choice (log 4). -/
def Obligations.CursorGoesRoundTheRing : Prop :=
  ∀ s s' : State, step s = .next s' →
    (s.ring = none → s'.cursor = s.cursor) ∧
    (∀ r, s.ring = some r → s.CarryFits r → (∀ f, s'.outcome ≠ some (.fault f)) →
      s'.cursor = (s.cursor + 1) % s.procs.length)

/-- The carry after a slot (R178, R208): the value OUT pushed if it pushed one, otherwise none pending; and a valid
carry is at the tail of the next Processor's InQ when its slot steps, with no other latency. -/
def Obligations.CarryGoesToTheNextSlot : Prop :=
  ∀ (s s' : State) (r' : Ring) (o : StepOutcome), s.ring.isSome → step s = .next s' → s'.ring = some r' →
    r'.nstatus ≠ .faulted → s'.outcome = some o →
    (∀ v, o = .progress (some v) → r'.carry = ⟨true, v⟩) ∧
    ((∀ v, o ≠ .progress (some v)) → r'.carry.valid = false) ∧
    (∀ p, r'.carry.valid = true → r'.nstatus = .running → s'.current = some p → s'.CarryFits r' →
      let r₁ : Ring := { r' with carry := ⟨false, r'.carry.value⟩ }
      let p₁ : Processor :=
        { p with inQ := p.inQ ++ [r'.carry.value], status := if p.status = .blocked then .running else p.status }
      step s' = State.slotStep { s' with procs := s'.procs.set s'.cursor p₁, ring := some r₁ } r₁)

/-- The end of a pass (R179, R182): after the slot of Processor N-1, all Halted is NDone with P[N-1]'s last output, or
NFaulted with NoOutput where it never output; otherwise no progress in the pass is NDeadlocked, and progress goes on.
pass_progress is then false. -/
def Obligations.EndOfPassDecides : Prop :=
  ∀ (s s' : State) (r r' : Ring) (p : Processor), s.ring = some r → s.cursor + 1 = s.procs.length →
    s.CarryFits r → step s = .next s' → (∀ f, s'.outcome ≠ some (.fault f)) →
    s'.ring = some r' → s'.procs[s'.procs.length - 1]? = some p →
    r'.passProgress = false ∧
    ((∀ q ∈ s'.procs, q.status = .halted) →
      (∀ v, p.lastOutput = some v → r'.nstatus = .done ∧ r'.result = some v) ∧
      (p.lastOutput = none → r'.nstatus = .faulted ∧ ∃ f, r'.nfault = some (s'.procs.length - 1, f) ∧
        f.code = .noOutput ∧ f.detail = some ((s'.procs.length - 1 : Nat) : Int))) ∧
    ((∃ q ∈ s'.procs, q.status ≠ .halted) →
      ((r.passProgress = true ∨ ∃ out, s'.outcome = some (.progress out)) → r'.nstatus = .running) ∧
      (r.passProgress = false ∧ (∀ out, s'.outcome ≠ some (.progress out)) → r'.nstatus = .deadlocked))

/-- A member's fault, and a carry that does not fit in InQ, stop the network (R181, R167): NFaulted with the
Processor's index and the record, the cursor where it was, no further slot, and `run` returns that index and record.
That a carry that does not fit leaves the Processors and the cursor as they were, with no step made, is the model's
choice (log 13); that a slot asked for afterwards is a named stop is its reading (log 9), and the bound of `run` is
its own (log 16). -/
def Obligations.FaultsStopTheNetwork : Prop :=
  ∀ (s s' : State) (r : Ring) (f : FaultRecord), s.ring = some r → step s = .next s' →
    (s.CarryFits r → s'.outcome = some (.fault f) → ∃ r', s'.ring = some r' ∧ r'.nstatus = .faulted ∧
      r'.nfault = some (s.cursor, f) ∧ s'.cursor = s.cursor ∧ step s' = .fault .networkFaulted ∧
      ∀ n, State.runNetwork n s' = some (.fault s.cursor f)) ∧
    (¬ s.CarryFits r → ∃ r' g, s'.procs = s.procs ∧ s'.ring = some r' ∧ r'.nstatus = .faulted ∧
      r'.nfault = some (s.cursor, g) ∧ g.code = .queueOverflow ∧ s'.cursor = s.cursor ∧
      step s' = .fault .networkFaulted ∧ ∀ n, State.runNetwork n s' = some (.fault s.cursor g))

/-- NDeadlocked is a fixed point (R180): were the ring given a further slot on any Processor, no Processor and no carry
would change, and the slot would make no progress. -/
def Obligations.DeadlockIsAFixedPoint : Prop :=
  ∀ (s : State) (r : Ring) (k : Nat), s.WF → s.RingConsistent → s.ring = some r → r.nstatus = .deadlocked →
    k < s.procs.length → ∃ s' r' o, step { s with cursor := k, ring := some { r with nstatus := .running } } = .next s' ∧
      s'.procs = s.procs ∧ s'.ring = some r' ∧ r'.carry = r.carry ∧ s'.outcome = some o ∧ (o = .starved ∨ o = .idle)

/-- A slot is allowed only while nstatus = NRunning (R178): a step asked for after the end is the stop named for it,
which is the model's form of "takes no further step" (R180, log 9). -/
def Obligations.EndedNetworkTakesNoSlot : Prop :=
  ∀ (s : State) (r : Ring), s.ring = some r →
    (r.nstatus = .done → step s = .fault .networkDone) ∧
    (r.nstatus = .deadlocked → step s = .fault .networkDeadlocked) ∧
    (r.nstatus = .faulted → step s = .fault .networkFaulted)

/-! ## The host's ports (60_exceptions.md R185 to R190, 40_pipeline.md R112) -/

/-- `inject_input` pushes at the tail of InQ and makes Blocked Running, in every other status leaving it; onto a full
queue it answers QueueOverflow (R186, R167). That a value which is no value of a cell is turned away is the model's
choice (log 23). -/
def Obligations.InjectPushesAndUnblocks : Prop :=
  ∀ (s : State) (p : Processor) (v : Cell), s.ring = none → s.current = some p →
    (fitsW s.cfg v →
      ((∀ d, s.cfg.queueDepth = some d → p.inQ.length < d) →
        (p.status = .blocked →
          s.injectInput v = .ok (s.setCurrent { p with inQ := p.inQ ++ [v], status := .running })) ∧
        (p.status ≠ .blocked → s.injectInput v = .ok (s.setCurrent { p with inQ := p.inQ ++ [v] }))) ∧
      (∀ d, s.cfg.queueDepth = some d → d ≤ p.inQ.length → s.injectInput v = .error .queueOverflow)) ∧
    (¬ fitsW s.cfg v → s.injectInput v = .error .notACell)

/-- `drain_output` returns all of OutQ, oldest first, and leaves it empty; nothing else changes, last_output included
(R187). -/
def Obligations.DrainReturnsAndEmptiesOutQ : Prop :=
  ∀ (s : State) (p : Processor), s.ring = none → s.current = some p →
    s.drainOutput = .ok (p.outQ, s.setCurrent { p with outQ := [] })

/-- `run_to_halt` runs steps until status is Halted or Faulted, returns nothing on Halted and the fault on Faulted,
and within a bound on the steps it returns exactly when so many steps reach such a state (R112, R190). A larger bound
changes nothing; the bound is the model's own (log 16). -/
def Obligations.RunToHaltReturnsOnlyAtTheEnd : Prop :=
  ∀ (n : Nat) (s : State),
    (∀ r s', State.runToHalt n s = some (r, s') →
      s'.Ended ∧ (∀ m, n ≤ m → State.runToHalt m s = some (r, s')) ∧
      (∃ k, k ≤ n ∧ Host.Core.run Sys2Proof.core k s = .next s') ∧
      ∃ p, s'.current = some p ∧
        ((p.status = .halted ∧ r = .ok) ∨ (p.status = .faulted ∧ ∃ f, p.fault = some f ∧ r = .fault f))) ∧
    (s.WF → s.ring = none → ∀ k s', k ≤ n → Host.Core.run Sys2Proof.core k s = .next s' → s'.Ended →
      (State.runToHalt n s).isSome)

/-- `run` of a network returns the same whatever the bound, once it returns: the result is P[N-1]'s last output of an
all-halted ring (R182, R184, R188). That `run` takes a bound on the slots is the model's own (log 16). -/
def Obligations.NetworkRunReturnsTheLastOutput : Prop :=
  ∀ (n m : Nat) (s : State) (v : Cell), s.WF → s.RingConsistent → State.runNetwork n s = some (.result v) → n ≤ m →
    State.runNetwork m s = some (.result v) ∧ ∃ s' : State, (∀ q ∈ s'.procs, q.status = .halted) ∧
      s'.procs.getLast?.bind Processor.lastOutput = some v ∧
      ∃ k, k ≤ n ∧ Host.Core.run Sys2Proof.core k s = .next s'
end

