-- ==== Sys2Proof/Laws/Memory.lean ====
section
/-! SUPPORT. The laws of memory: reading back a write, what a load holds, and that every operation keeps the canonical
form and the capacity. -/

namespace Sys2Proof.Machine.Memory

@[simp] theorem read_nil (a : Nat) : read [] a = 0 := rfl

@[simp] theorem wf_nil : wf [] := by simp [wf]

theorem wf_cons {b : Nat} {u : Cell} {m : Memory} :
    wf ((b, u) :: m) ↔ (∀ c ∈ m, b < c.1) ∧ u ≠ 0 ∧ wf m := by
  simp only [wf, List.pairwise_cons, List.mem_cons, forall_eq_or_imp]
  tauto

/-- An address below every listed one reads as an unlisted address. -/
theorem read_of_lt {m : Memory} {a : Nat} (h : ∀ c ∈ m, a < c.1) : read m a = 0 := by
  induction m with
  | nil => rfl
  | cons c m ih =>
    obtain ⟨b, u⟩ := c
    have hb : a < b := h (b, u) (by simp)
    rw [read, if_neg (by omega), ih fun c hc => h c (by simp [hc])]

theorem read_write_same {m : Memory} (h : wf m) (a : Nat) (v : Cell) : read (write m a v) a = v := by
  induction m with
  | nil => by_cases hv : v = 0 <;> simp [write, read, hv]
  | cons c m ih =>
    obtain ⟨b, u⟩ := c
    obtain ⟨hb, -, hm⟩ := wf_cons.1 h
    rcases Nat.lt_trichotomy a b with hab | rfl | hab
    · have h0 : read ((b, u) :: m) a = 0 := by
        refine read_of_lt fun c hc => ?_
        rcases List.mem_cons.1 hc with rfl | hc
        · exact hab
        · exact hab.trans (hb c hc)
      by_cases hv : v = 0
      · rw [write, if_pos hab, if_pos hv, h0, hv]
      · rw [write, if_pos hab, if_neg hv, read, if_pos rfl]
    · by_cases hv : v = 0
      · rw [write, if_neg (lt_irrefl _), if_pos rfl, if_pos hv, read_of_lt hb, hv]
      · rw [write, if_neg (lt_irrefl _), if_pos rfl, if_neg hv, read, if_pos rfl]
    · rw [write, if_neg (by omega), if_neg (by omega), read, if_neg (by omega), ih hm]

theorem read_write_other {a a' : Nat} (h : a' ≠ a) (m : Memory) (v : Cell) : read (write m a v) a' = read m a' := by
  induction m with
  | nil => by_cases hv : v = 0 <;> simp [write, read, hv, h]
  | cons c m ih =>
    obtain ⟨b, u⟩ := c
    by_cases hab : a < b
    · by_cases hv : v = 0 <;> simp [write, hab, hv, read, h]
    · by_cases hab' : a = b
      · subst hab'
        by_cases hv : v = 0 <;> simp [write, hv, read, h]
      · simp only [write, if_neg hab, if_neg hab', read, ih]

/-- Every address a write leaves listed was listed before or is the one written. -/
theorem mem_write {m : Memory} {a : Nat} {v : Cell} {c : Nat × Cell} (h : c ∈ write m a v) :
    c ∈ m ∨ (c = (a, v) ∧ v ≠ 0) := by
  induction m with
  | nil =>
    by_cases hv : v = 0
    · simp [write, hv] at h
    · rw [write, if_neg hv, List.mem_singleton] at h
      exact .inr ⟨h, hv⟩
  | cons d m ih =>
    obtain ⟨b, u⟩ := d
    simp only [write] at h
    split_ifs at h with h1 h2 h3 h4
    · exact .inl h
    · rcases List.mem_cons.1 h with rfl | h
      · exact .inr ⟨rfl, h2⟩
      · exact .inl h
    · exact .inl (List.mem_cons_of_mem _ h)
    · rcases List.mem_cons.1 h with rfl | h
      · exact .inr ⟨rfl, h4⟩
      · exact .inl (List.mem_cons_of_mem _ h)
    · rcases List.mem_cons.1 h with rfl | h
      · exact .inl (by simp)
      · rcases ih h with h | h
        · exact .inl (List.mem_cons_of_mem _ h)
        · exact .inr h

/-- A write keeps the canonical form. -/
theorem write_wf {m : Memory} (h : wf m) (a : Nat) (v : Cell) : wf (write m a v) := by
  induction m with
  | nil => by_cases hv : v = 0 <;> simp [write, hv, wf]
  | cons c m ih =>
    obtain ⟨b, u⟩ := c
    obtain ⟨hb, hu, hm⟩ := wf_cons.1 h
    simp only [write]
    split_ifs with h1 h2 h3 h4
    · exact h
    · refine wf_cons.2 ⟨fun c hc => ?_, h2, h⟩
      rcases List.mem_cons.1 hc with rfl | hc
      · exact h1
      · exact h1.trans (hb c hc)
    · exact hm
    · exact wf_cons.2 ⟨h3 ▸ hb, h4, hm⟩
    · refine wf_cons.2 ⟨fun c hc => ?_, hu, ih hm⟩
      rcases mem_write hc with hc | ⟨rfl, -⟩
      · exact hb c hc
      · show b < a
        omega

/-- A write below a bound keeps every listed address below it. -/
theorem write_bound {m : Memory} {n a : Nat} (h : ∀ c ∈ m, c.1 < n) (ha : a < n) (v : Cell) :
    ∀ c ∈ write m a v, c.1 < n := by
  intro c hc
  rcases mem_write hc with hc | ⟨rfl, -⟩
  · exact h c hc
  · exact ha

theorem mem_loadAt {image : List Cell} {a : Nat} {c : Nat × Cell} (h : c ∈ loadAt a image) :
    a ≤ c.1 ∧ c.1 < a + image.length ∧ c.2 ≠ 0 := by
  induction image generalizing a with
  | nil => simp [loadAt] at h
  | cons v vs ih =>
    simp only [loadAt] at h
    have hl : (v :: vs).length = vs.length + 1 := rfl
    split_ifs at h with hv
    · have := ih h
      exact ⟨by omega, by omega, this.2.2⟩
    · rcases List.mem_cons.1 h with rfl | h
      · exact ⟨le_refl _, by simp, hv⟩
      · have := ih h
        exact ⟨by omega, by omega, this.2.2⟩

/-- A load is in canonical form. -/
theorem loadAt_wf (a : Nat) (image : List Cell) : wf (loadAt a image) := by
  induction image generalizing a with
  | nil => exact wf_nil
  | cons v vs ih =>
    simp only [loadAt]
    split_ifs with hv
    · exact ih _
    · refine wf_cons.2 ⟨fun c hc => ?_, hv, ih _⟩
      have := mem_loadAt hc
      omega

theorem load_wf (image : List Cell) : wf (load image) := loadAt_wf 0 image

/-- A load lists only addresses of the image. -/
theorem load_bound {image : List Cell} {n : Nat} (h : image.length ≤ n) : ∀ c ∈ load image, c.1 < n := by
  intro c hc
  have := mem_loadAt hc
  omega

theorem read_loadAt (a k : Nat) (image : List Cell) : read (loadAt a image) (a + k) = image.getD k 0 := by
  induction image generalizing a k with
  | nil => simp [loadAt]
  | cons v vs ih =>
    have step : ∀ k, read (loadAt (a + 1) vs) (a + (k + 1)) = vs.getD k 0 := by
      intro k
      rw [show a + (k + 1) = (a + 1) + k by omega]
      exact ih (a + 1) k
    have first : read (loadAt (a + 1) vs) a = 0 := by
      refine read_of_lt fun c hc => ?_
      have := mem_loadAt hc
      omega
    simp only [loadAt]
    split_ifs with hv
    · cases k with
      | zero => simpa [hv] using first
      | succ k => simpa using step k
    · cases k with
      | zero => simp [read]
      | succ k => simpa [read] using step k

/-! ## Values in range (20_memory.md R51) -/

/-- A cell of a memory whose listed cells are in range is in range. -/
theorem read_fits {cfg : Config} {m : Memory} (h : ∀ c ∈ m, fitsW cfg c.2) (h0 : fitsW cfg 0) (a : Nat) :
    fitsW cfg (read m a) := by
  induction m with
  | nil => exact h0
  | cons c m ih =>
    obtain ⟨b, u⟩ := c
    rw [read]
    split_ifs
    · exact h (b, u) (by simp)
    · exact ih fun c hc => h c (List.mem_cons_of_mem _ hc)

theorem write_fits {cfg : Config} {m : Memory} {v : Cell} (h : ∀ c ∈ m, fitsW cfg c.2) (hv : fitsW cfg v) (a : Nat) :
    ∀ c ∈ write m a v, fitsW cfg c.2 := by
  intro c hc
  rcases mem_write hc with hc | ⟨rfl, -⟩
  · exact h c hc
  · exact hv

theorem loadAt_fits {cfg : Config} {image : List Cell} (h : ∀ v ∈ image, fitsW cfg v) (a : Nat) :
    ∀ c ∈ loadAt a image, fitsW cfg c.2 := by
  induction image generalizing a with
  | nil => simp [loadAt]
  | cons v vs ih =>
    have tail := ih (fun v hv => h v (List.mem_cons_of_mem _ hv)) (a + 1)
    rw [loadAt]
    split_ifs
    · exact tail
    · intro c hc
      rcases List.mem_cons.1 hc with rfl | hc
      · exact h v (by simp)
      · exact tail c hc

theorem load_fits {cfg : Config} {image : List Cell} (h : ∀ v ∈ image, fitsW cfg v) :
    ∀ c ∈ load image, fitsW cfg c.2 := loadAt_fits h 0

theorem place_wf (cfg : Config) {m : Memory} (h : wf m) (a : Nat) (cells : List Cell) : wf (place cfg m a cells) := by
  induction cells generalizing m a with
  | nil => exact h
  | cons v vs ih =>
    simp only [place]
    split_ifs
    · exact ih (write_wf h a v) _
    · exact ih h _

end Sys2Proof.Machine.Memory
end

