-- ==== Sys2Proof/Laws/State.lean ====
section
/-! SUPPORT. One lemma per field per update of the state, so that no later proof unfolds a record update. -/

namespace Sys2Proof.Machine.State

section Fields
variable (s : State) (p p' : Processor) (o : StepOutcome) (r : Raise) (g : Ring)

@[simp] theorem setCurrent_cfg : (s.setCurrent p).cfg = s.cfg := rfl
@[simp] theorem setCurrent_procs : (s.setCurrent p).procs = s.procs.set s.cursor p := rfl
@[simp] theorem setCurrent_cursor : (s.setCurrent p).cursor = s.cursor := rfl
@[simp] theorem setCurrent_ring : (s.setCurrent p).ring = s.ring := rfl
@[simp] theorem setCurrent_outcome : (s.setCurrent p).outcome = s.outcome := rfl

@[simp] theorem commit_cfg : (s.commit p o).cfg = s.cfg := rfl
@[simp] theorem commit_procs : (s.commit p o).procs = s.procs.set s.cursor p := rfl
@[simp] theorem commit_cursor : (s.commit p o).cursor = s.cursor := rfl
@[simp] theorem commit_ring : (s.commit p o).ring = s.ring := rfl
@[simp] theorem commit_outcome : (s.commit p o).outcome = some o := rfl

@[simp] theorem takeFault_cfg : (s.takeFault p r).cfg = s.cfg := rfl
@[simp] theorem takeFault_procs : (s.takeFault p r).procs =
    s.procs.set s.cursor { p with status := .faulted, fault := some (p.faultRecord s.cfg r) } := rfl
@[simp] theorem takeFault_cursor : (s.takeFault p r).cursor = s.cursor := rfl
@[simp] theorem takeFault_ring : (s.takeFault p r).ring = s.ring := rfl
@[simp] theorem takeFault_outcome : (s.takeFault p r).outcome = some (.fault (p.faultRecord s.cfg r)) := rfl

@[simp] theorem finish_ok : s.finish p (.ok (p', o)) = s.commit p' o := rfl
@[simp] theorem finish_error : s.finish p (.error r) = s.takeFault p r := rfl

end Fields

/-- The Processor at the cursor is in the list. -/
theorem current_mem {s : State} {p : Processor} (h : s.current = some p) : p ∈ s.procs :=
  List.mem_of_getElem? h

theorem current_lt {s : State} {p : Processor} (h : s.current = some p) : s.cursor < s.procs.length :=
  (List.getElem?_eq_some_iff.1 h).1

theorem exists_current {s : State} (h : s.cursor < s.procs.length) : ∃ p, s.current = some p :=
  ⟨_, List.getElem?_eq_getElem h⟩

/-- What was put at the cursor is read back there. -/
theorem current_setCurrent {s : State} {p p' : Processor} (h : s.current = some p) :
    (s.setCurrent p').current = some p' := by
  simp [current, current_lt h]

theorem current_commit {s : State} {p p' : Processor} {o : StepOutcome} (h : s.current = some p) :
    (s.commit p' o).current = some p' :=
  current_setCurrent (p' := p') h

/-- Putting a Processor at the cursor leaves every other one alone. -/
theorem setCurrent_other (s : State) (p : Processor) {k : Nat} (h : k ≠ s.cursor) :
    (s.setCurrent p).procs[k]? = s.procs[k]? := by
  simp [h.symm]

theorem onCurrent_of_current {s : State} {p : Processor} (h : s.current = some p) (f : Config → Processor → Effect) :
    s.onCurrent f = .next (s.finish p (f s.cfg p)) := by
  simp [onCurrent, h]

end Sys2Proof.Machine.State
end

