-- ==== Sys2Proof/Laws/Ops.lean ====
section
/-! SUPPORT. What each shared operation can do, said once: memory ports, queues, operands, the ALU. -/

namespace Sys2Proof.Machine

/-! ## Memory ports -/

theorem memRead_eq_ok {cfg : Config} {m : Memory} {i : Nat} {a : Int} {v : Cell} :
    memRead cfg m i a = .ok v ↔ legalAddr cfg a ∧ v = Memory.read m a.toNat := by
  unfold memRead
  split_ifs with h
  · exact ⟨fun e => ⟨h, (Except.ok.inj e).symm⟩, fun e => congrArg _ e.2.symm⟩
  · simp [h]

theorem memRead_eq_error {cfg : Config} {m : Memory} {i : Nat} {a : Int} {r : Raise} :
    memRead cfg m i a = .error r ↔ ¬ legalAddr cfg a ∧ r = ⟨.memoryFault, i, some a⟩ := by
  unfold memRead
  split_ifs with h
  · simp [h]
  · simp [h, eq_comm]

theorem memWrite_eq_ok {cfg : Config} {m m' : Memory} {i : Nat} {a : Int} {v : Cell} :
    memWrite cfg m i a v = .ok m' ↔ legalAddr cfg a ∧ m' = Memory.write m a.toNat v := by
  unfold memWrite
  split_ifs with h
  · exact ⟨fun e => ⟨h, (Except.ok.inj e).symm⟩, fun e => congrArg _ e.2.symm⟩
  · simp [h]

theorem memWrite_of_legal {cfg : Config} {a : Int} (h : legalAddr cfg a) (m : Memory) (i : Nat) (v : Cell) :
    memWrite cfg m i a v = .ok (Memory.write m a.toNat v) := memWrite_eq_ok.2 ⟨h, rfl⟩

/-- A legal address is below the capacity as a list key. -/
theorem legalAddr_toNat {cfg : Config} {a : Int} (h : legalAddr cfg a) : a.toNat < cfg.memCapacity := by
  have := h.1
  have := h.2
  omega

/-- A port write keeps the canonical form and the capacity. -/
theorem memWrite_keeps {cfg : Config} {m m' : Memory} {i : Nat} {a : Int} {v : Cell}
    (h : memWrite cfg m i a v = .ok m') (hw : Memory.wf m) (hb : ∀ c ∈ m, c.1 < cfg.memCapacity) :
    Memory.wf m' ∧ ∀ c ∈ m', c.1 < cfg.memCapacity := by
  obtain ⟨hl, rfl⟩ := memWrite_eq_ok.1 h
  exact ⟨Memory.write_wf hw _ _, Memory.write_bound hb (legalAddr_toNat hl) v⟩

/-! ## Queues -/

theorem pushQueue_eq_ok {cfg : Config} {q q' : List Cell} {v : Cell} :
    pushQueue cfg q v = .ok q' ↔ queueFull cfg q = false ∧ q' = q ++ [v] := by
  unfold pushQueue
  split_ifs with h
  · simp [h]
  · simp [h, eq_comm]

theorem pushQueue_eq_error {cfg : Config} {q : List Cell} {v : Cell} {r : Raise} :
    pushQueue cfg q v = .error r ↔ queueFull cfg q = true ∧ r = ⟨.queueOverflow, 0, none⟩ := by
  unfold pushQueue
  split_ifs with h
  · simp [h, eq_comm]
  · simp [h]

/-- A queue that is not full has room for one more value. -/
theorem length_lt_of_not_full {cfg : Config} {q : List Cell} (h : queueFull cfg q = false) {d : Nat}
    (hd : cfg.queueDepth = some d) : q.length < d := by
  simpa [queueFull, hd] using h

theorem inject_eq_ok {cfg : Config} {p p' : Processor} {v : Cell} :
    p.inject cfg v = .ok p' ↔ queueFull cfg p.inQ = false ∧
      p' = { p with inQ := p.inQ ++ [v], status := if p.status = .blocked then .running else p.status } := by
  unfold Processor.inject
  cases h : pushQueue cfg p.inQ v with
  | error r => simp [(pushQueue_eq_error.1 h).1]
  | ok q =>
    obtain ⟨hq, rfl⟩ := pushQueue_eq_ok.1 h
    simp [hq, eq_comm]

theorem inject_eq_error {cfg : Config} {p : Processor} {v : Cell} {r : Raise} :
    p.inject cfg v = .error r ↔ queueFull cfg p.inQ = true ∧ r = ⟨.queueOverflow, 0, none⟩ := by
  unfold Processor.inject
  cases h : pushQueue cfg p.inQ v with
  | error r' =>
    obtain ⟨hq, rfl⟩ := pushQueue_eq_error.1 h
    simp [hq, eq_comm]
  | ok q => simp [(pushQueue_eq_ok.1 h).1]

/-! ## Operands -/

/-- A write address names a legal target that is not Immediate. -/
theorem writeAddr_eq_ok {cfg : Config} {p : Processor} {j : Nat} {o : Operand} {a : Int} :
    p.writeAddr cfg j o = .ok a ↔ p.targetAddr o = some a ∧ legalAddr cfg a := by
  unfold Processor.writeAddr
  cases p.targetAddr o with
  | none => simp
  | some b =>
    dsimp only
    split_ifs with h
    · constructor
      · intro hb
        cases hb
        exact ⟨rfl, h⟩
      · rintro ⟨hb, -⟩
        cases hb
        rfl
    · constructor
      · intro hb
        cases hb
      · rintro ⟨hb, hl⟩
        cases hb
        exact absurd hl h

theorem targetAddr_isSome {p : Processor} {o : Operand} {a : Int} (h : p.targetAddr o = some a) :
    o.mode ≠ .immediate := by
  rintro hm
  simp [Processor.targetAddr, hm] at h

theorem checkTarget_eq_ok {j : Nat} {o : Operand} : checkTarget j o = .ok () ↔ o.mode ≠ .immediate := by
  unfold checkTarget
  split_ifs with h <;> simp [h]

/-! ## The ALU -/

/-- `wrapW` keeps the residue modulo 2^CELL_W (R7). -/
theorem wrapW_emod (cfg : Config) (v : Int) : wrapW cfg v % 2 ^ cfg.cellW = v % 2 ^ cfg.cellW := by
  have h := Int.bmod_emod (x := v) (m := 2 ^ cfg.cellW)
  push_cast at h
  exact h

/-- `wrapW` gives a value of a cell (R7). -/
theorem fitsW_wrapW {cfg : Config} (h : 1 ≤ cfg.cellW) (v : Int) : fitsW cfg (wrapW cfg v) := by
  have hp : 2 ^ cfg.cellW = 2 * 2 ^ (cfg.cellW - 1) := by
    conv_lhs => rw [show cfg.cellW = (cfg.cellW - 1) + 1 by omega, Nat.pow_succ, Nat.mul_comm]
  have h0 : 0 < 2 ^ cfg.cellW := Nat.two_pow_pos _
  have h1 := Int.le_bmod (x := v) h0
  have h2 := Int.bmod_lt (x := v) h0
  simp only [fitsW, wrapW, Config.cellMin, Config.cellMax]
  rw [hp] at h1 h2 ⊢
  constructor <;> omega

/-- What `fix` gives, and when (R108). -/
theorem fix_eq_ok {cfg : Config} {v : Int} {r : Cell} :
    fix cfg v = .ok r ↔
      (fitsW cfg v ∧ r = v) ∨ (¬ fitsW cfg v ∧ cfg.overflowPolicy = .wrap ∧ r = wrapW cfg v) := by
  unfold fix
  by_cases h : fitsW cfg v
  · rw [if_pos h]
    exact ⟨fun e => .inl ⟨h, (Except.ok.inj e).symm⟩, fun e => e.elim (fun e => congrArg _ e.2.symm) fun e => absurd h e.1⟩
  · rw [if_neg h]
    cases hp : cfg.overflowPolicy <;> simp [aluOvf, h, hp, eq_comm]

theorem fix_of_fits {cfg : Config} {v : Int} (h : fitsW cfg v) : fix cfg v = .ok v := fix_eq_ok.2 (.inl ⟨h, rfl⟩)

theorem fix_of_wrap {cfg : Config} {v : Int} (h : ¬ fitsW cfg v) (hp : cfg.overflowPolicy = .wrap) :
    fix cfg v = .ok (wrapW cfg v) := fix_eq_ok.2 (.inr ⟨h, hp, rfl⟩)

theorem fix_of_fault {cfg : Config} {v : Int} (h : ¬ fitsW cfg v) (hp : cfg.overflowPolicy = .fault) :
    fix cfg v = .error ⟨.arithmeticOverflow, 0, some v⟩ := by
  simp [fix, aluOvf, h, hp]

/-! ## Values in range -/

/-- What the ALU narrows is a value of a cell. -/
theorem fix_fits {cfg : Config} (hw : 1 ≤ cfg.cellW) {v : Int} {r : Cell} (h : fix cfg v = .ok r) : fitsW cfg r := by
  obtain ⟨hf, rfl⟩ | ⟨-, -, rfl⟩ := fix_eq_ok.1 h
  · exact hf
  · exact fitsW_wrapW hw v

/-- 0 and 1 are values of a cell. -/
theorem fitsW_bit {cfg : Config} (hw : 2 ≤ cfg.cellW) : fitsW cfg 0 ∧ fitsW cfg 1 := by
  have : 2 ^ 1 ≤ 2 ^ (cfg.cellW - 1) := Nat.pow_le_pow_right (by omega) (by omega)
  simp only [fitsW, Config.cellMin, Config.cellMax]
  omega

/-- What an operand reads is its own raw parameter or a cell of memory. -/
theorem readOperand_source {cfg : Config} {p : Processor} {i : Nat} {o : Operand} {x : Cell}
    (h : p.readOperand cfg i o = .ok x) : x = o.raw ∨ ∃ a, x = Memory.read p.mem a := by
  unfold Processor.readOperand at h
  split at h
  · exact .inr ⟨_, (memRead_eq_ok.1 h).2⟩
  · cases h
    exact .inl rfl
  · exact .inr ⟨_, (memRead_eq_ok.1 h).2⟩

end Sys2Proof.Machine
end

