-- ==== Sys2Proof/Laws/Decode.lean ====
section
/-! SUPPORT. What the decoder and the fetch can answer, said once. -/

namespace Sys2Proof

theorem decodeModes_length {w : Int} {i n : Nat} {ms : List Mode} (h : decodeModes w i n = .ok ms) : ms.length = n := by
  induction n generalizing i ms with
  | zero =>
    cases h
    rfl
  | succ n ih =>
    simp only [decodeModes] at h
    split at h
    · cases h
    · split at h
      · cases h
      · rename_i ms' hms
        cases h
        simp [ih hms]

/-- The modes decoded are the word's digits, in order (R79, R99). -/
theorem decodeModes_digit {w : Int} {i n : Nat} {ms : List Mode} (h : decodeModes w i n = .ok ms) {k : Nat} {m : Mode}
    (hk : ms[k]? = some m) : Mode.ofDigit? (modeField w (i + k)) = some m := by
  induction n generalizing i ms k with
  | zero =>
    cases h
    simp at hk
  | succ n ih =>
    simp only [decodeModes] at h
    split at h
    · cases h
    · rename_i m' hm'
      split at h
      · cases h
      · rename_i ms' hms
        cases h
        cases k with
        | zero =>
          simp only [List.getElem?_cons_zero, Option.some.injEq] at hk
          rw [Nat.add_zero, hm', hk]
        | succ k =>
          rw [List.getElem?_cons_succ] at hk
          rw [show i + (k + 1) = (i + 1) + k by omega]
          exact ih hms hk

/-- What an accepted word is (R98, R99, R100). -/
theorem decodeHeader_eq_ok {w : Cell} {h : Header} :
    decodeHeader w = .ok h ↔
      Opcode.ofNumber? (opcodeField w) = some h.op ∧ decodeModes w 1 h.op.arity = .ok h.modes ∧
        ¬ (h.op.wparam ≠ 0 ∧ h.mode h.op.wparam = .immediate) := by
  obtain ⟨op, ms⟩ := h
  unfold decodeHeader
  cases ho : Opcode.ofNumber? (opcodeField w) with
  | none => simp
  | some op' =>
    dsimp only
    cases hm : decodeModes w 1 op'.arity with
    | error e =>
      constructor
      · intro h
        cases h
      · rintro ⟨h1, h2, -⟩
        cases h1
        rw [hm] at h2
        cases h2
    | ok ms' =>
      dsimp only
      split_ifs with hi
      · constructor
        · intro h
          cases h
        · rintro ⟨h1, h2, h3⟩
          cases h1
          rw [hm] at h2
          cases h2
          exact absurd hi h3
      · constructor
        · intro h
          cases h
          exact ⟨rfl, hm, hi⟩
        · rintro ⟨h1, h2, -⟩
          cases h1
          rw [hm] at h2
          cases h2
          rfl

theorem Header.instr_opcode (h : Header) (raws : List Cell) : (h.instr raws).opcode = h.op := by
  obtain ⟨op, ms⟩ := h
  cases op <;> rfl

theorem Header.instr_operands_length (h : Header) (raws : List Cell) :
    (h.instr raws).operands.length = h.op.arity := by
  obtain ⟨op, ms⟩ := h
  cases op <;> rfl

theorem Instr.operands_length (i : Instr) : i.operands.length = i.opcode.arity := by
  cases i <;> rfl

/-- The raw parameters of a decoded instruction are cells of its list, or 0 where the list is too short. -/
theorem Header.instr_raw {h : Header} {raws : List Cell} {o : Operand} (ho : o ∈ (h.instr raws).operands) :
    o.raw ∈ raws ∨ o.raw = 0 := by
  have raw : ∀ k, raws.getD k 0 ∈ raws ∨ raws.getD k 0 = 0 := by
    intro k
    rcases lt_or_ge k raws.length with hk | hk
    · exact .inl (List.getD_eq_getElem raws 0 hk ▸ List.getElem_mem hk)
    · exact .inr (List.getD_eq_default raws 0 hk)
  obtain ⟨op, ms⟩ := h
  cases op <;> simp only [Header.instr, Instr.operands, List.mem_cons, List.not_mem_nil, or_false] at ho
  all_goals rcases ho with rfl | rfl | rfl <;> exact raw _

/-- What the decoder accepts is well-formed (R87). -/
theorem decodeHeader_wellFormed {w : Cell} {h : Header} (hd : decodeHeader w = .ok h) (raws : List Cell) :
    (h.instr raws).WellFormed := by
  obtain ⟨-, -, hw⟩ := decodeHeader_eq_ok.1 hd
  obtain ⟨op, ms⟩ := h
  intro o ho
  cases op <;> simp only [Header.instr, Instr.writeParam, Option.mem_def, Option.some.injEq, reduceCtorEq] at ho
  all_goals
    subst ho
    intro hi
    exact hw ⟨by simp [Opcode.wparam], hi⟩

theorem decode_cons_eq_ok {w : Cell} {cells rest : List Cell} {i : Instr} :
    decode (w :: cells) = .ok (i, rest) ↔
      ∃ h, decodeHeader w = .ok h ∧ h.op.arity ≤ cells.length ∧ i = h.instr (cells.take h.op.arity) ∧
        rest = cells.drop h.op.arity := by
  rw [decode]
  cases hh : decodeHeader w with
  | error f => simp
  | ok h =>
    dsimp only
    split_ifs with hl
    · constructor
      · intro h'
        cases h'
      · rintro ⟨_, h', ha, -⟩
        cases h'
        omega
    · constructor
      · intro h'
        cases h'
        exact ⟨h, rfl, by omega, rfl, rfl⟩
      · rintro ⟨_, h', -, rfl, rfl⟩
        cases h'
        rfl

namespace Machine

theorem fetchParams_eq_ok {cfg : Config} {p : Processor} {i n : Nat} {vs : List Cell} :
    fetchParams cfg p i n = .ok vs ↔
      (∀ k < n, p.ip + i + k < cfg.memCapacity) ∧
        vs = (List.range n).map (fun k => Memory.read p.mem (p.ip + i + k)) := by
  induction n generalizing i vs with
  | zero => simp [fetchParams, eq_comm]
  | succ n ih =>
    simp only [fetchParams, List.range_succ_eq_map, List.map_cons, List.map_map]
    cases hr : memRead cfg p.mem i ((p.ip + i : Nat) : Int) with
    | error r =>
      have hl := (memRead_eq_error.1 hr).1
      constructor
      · intro h
        cases h
      · rintro ⟨hk, -⟩
        exact absurd ⟨by omega, by have := hk 0 (by omega); omega⟩ hl
    | ok v =>
      obtain ⟨hl, rfl⟩ := memRead_eq_ok.1 hr
      have hl := hl.2
      have shift : ∀ m, (List.range m).map (fun k => Memory.read p.mem (p.ip + (i + 1) + k)) =
          (List.range m).map ((fun k => Memory.read p.mem (p.ip + i + k)) ∘ Nat.succ) := fun m =>
        List.map_congr_left fun k _ => by
          show Memory.read p.mem _ = Memory.read p.mem _
          congr 1
          omega
      dsimp only
      cases hf : fetchParams cfg p (i + 1) n with
      | error r =>
        constructor
        · intro h
          cases h
        · rintro ⟨hk, -⟩
          have := (ih (i := i + 1)).2 ⟨fun k hkn => by have := hk (k + 1) (by omega); omega, rfl⟩
          rw [hf] at this
          cases this
      | ok us =>
        obtain ⟨hk, rfl⟩ := ih.1 hf
        rw [shift]
        constructor
        · intro h
          cases h
          refine ⟨fun k hkn => ?_, rfl⟩
          cases k with
          | zero => omega
          | succ k =>
            have := hk k (by omega)
            omega
        · rintro ⟨-, rfl⟩
          rfl

/-- What is fetched depends on M and ip alone. -/
theorem fetch_congr {cfg : Config} {p q : Processor} (hm : p.mem = q.mem) (hi : p.ip = q.ip) :
    p.fetch cfg = q.fetch cfg := by
  have params : ∀ n i, fetchParams cfg p i n = fetchParams cfg q i n := by
    intro n
    induction n with
    | zero => exact fun _ => rfl
    | succ n ih =>
      intro i
      rw [fetchParams, fetchParams, hm, hi, ih]
  simp only [Processor.fetch, hm, hi, params]

/-- FETCH, DECODE and PARAMETER FETCH succeed exactly when the word at ip is accepted and all its cells exist (R97 to
R101), and then give the instruction of those cells. -/
theorem fetch_eq_ok {cfg : Config} {p : Processor} {i : Instr} :
    p.fetch cfg = .ok i ↔
      ∃ h, decodeHeader (Memory.read p.mem p.ip) = .ok h ∧ p.ip + h.op.arity < cfg.memCapacity ∧
        i = h.instr ((List.range h.op.arity).map (fun k => Memory.read p.mem (p.ip + 1 + k))) := by
  unfold Processor.fetch
  cases hr : memRead cfg p.mem 0 (p.ip : Int) with
  | error r =>
    have hl := (memRead_eq_error.1 hr).1
    constructor
    · intro h
      cases h
    · rintro ⟨h, -, hlt, -⟩
      exact absurd ⟨by omega, by omega⟩ hl
  | ok w =>
    obtain ⟨⟨-, hl⟩, rfl⟩ := memRead_eq_ok.1 hr
    rw [Int.toNat_natCast]
    dsimp only
    cases hd : decodeHeader (Memory.read p.mem p.ip) with
    | error e => simp
    | ok h =>
      dsimp only
      cases hf : fetchParams cfg p 1 h.op.arity with
      | error r =>
        constructor
        · intro h'
          cases h'
        · rintro ⟨_, h', hlt, -⟩
          cases h'
          have := (fetchParams_eq_ok (i := 1) (n := h.op.arity)).2
            ⟨fun k hk => (by omega : p.ip + 1 + k < cfg.memCapacity), rfl⟩
          rw [hf] at this
          cases this
      | ok vs =>
        obtain ⟨hk, rfl⟩ := fetchParams_eq_ok.1 hf
        constructor
        · intro h'
          cases h'
          refine ⟨h, rfl, ?_, rfl⟩
          rcases Nat.eq_zero_or_pos h.op.arity with h0 | h0
          · omega
          · have := hk (h.op.arity - 1) (by omega)
            omega
        · rintro ⟨_, h', -, rfl⟩
          cases h'
          rfl

/-- An instruction fetched is well-formed, and all its cells exist. -/
theorem fetch_bound {cfg : Config} {p : Processor} {i : Instr} (h : p.fetch cfg = .ok i) :
    p.ip + i.operands.length < cfg.memCapacity := by
  obtain ⟨hd, -, hlt, rfl⟩ := fetch_eq_ok.1 h
  rwa [Header.instr_operands_length]

theorem fetch_wellFormed {cfg : Config} {p : Processor} {i : Instr} (h : p.fetch cfg = .ok i) : i.WellFormed := by
  obtain ⟨hd, hh, -, rfl⟩ := fetch_eq_ok.1 h
  exact decodeHeader_wellFormed hh _

/-- Where the cells from ip on decode to an instruction that lies inside the capacity, the fetch gives it. -/
theorem fetch_of_decode {cfg : Config} {p : Processor} {i : Instr} {n : Nat} {rest : List Cell}
    (h : decode (p.window n) = .ok (i, rest)) (hl : p.ip + i.length ≤ cfg.memCapacity) : p.fetch cfg = .ok i := by
  cases n with
  | zero => cases h
  | succ n =>
    rw [Processor.window, List.range_succ_eq_map, List.map_cons, decode_cons_eq_ok] at h
    obtain ⟨hd, hh, ha, rfl, -⟩ := h
    refine fetch_eq_ok.2 ⟨hd, hh, ?_, ?_⟩
    · rw [Instr.length, Header.instr_operands_length] at hl
      omega
    · congr 1
      simp only [List.length_map, List.length_range] at ha
      rw [List.map_map, ← List.map_take, List.take_range, Nat.min_eq_left ha]
      refine List.map_congr_left fun k _ => ?_
      show Memory.read p.mem _ = Memory.read p.mem _
      congr 1
      omega

end Machine
end Sys2Proof
end

