-- ==== Sys2Proof/Laws/Effects.lean ====
section
/-! SUPPORT. What each instruction can do, said once: the effect behind every arm of `exec`, its result under the
conditions it needs, and its inversion. -/

namespace Sys2Proof.Machine

/-- The effect each arm of `exec` runs on the Processor at the cursor. -/
def effect : Instr → Config → Processor → Effect
  | .add a b d => binaryEffect aluAdd a b d
  | .mul a b d => binaryEffect aluMul a b d
  | .inp d => inputEffect d
  | .out v => outputEffect v
  | .jt c t => jumpEffect aluNz c t
  | .jf c t => jumpEffect (fun c => !aluNz c) c t
  | .lt a b d => binaryEffect (fun _ x y => .ok (aluLt x y)) a b d
  | .eq a b d => binaryEffect (fun _ x y => .ok (aluEq x y)) a b d
  | .arb v => relativeBaseEffect v
  | .hlt => haltEffect

/-- Every instruction is its effect on the Processor at the cursor. -/
theorem exec_eq_onCurrent (i : Instr) (s : State) : exec i s = s.onCurrent (effect i) := by
  cases i <;> rfl

theorem exec_of_current {s : State} {p : Processor} (h : s.current = some p) (i : Instr) :
    exec i s = .next (s.finish p (effect i s.cfg p)) := by
  rw [exec_eq_onCurrent, State.onCurrent_of_current h]

/-! ## Format F3 -/

theorem binaryEffect_of {alu : Config → Cell → Cell → Except Raise Cell} {a b dst : Operand} {cfg : Config}
    {p : Processor} {x y r : Cell} {d : Int} (hx : p.readOperand cfg 1 a = .ok x) (hy : p.readOperand cfg 2 b = .ok y)
    (hd : p.writeAddr cfg 3 dst = .ok d) (hr : alu cfg x y = .ok r) :
    binaryEffect alu a b dst cfg p =
      .ok ({ p with mem := Memory.write p.mem d.toNat r, ip := p.ip + 4 }, .progress none) := by
  obtain ⟨ht, hl⟩ := writeAddr_eq_ok.1 hd
  simp [binaryEffect, checkTarget_eq_ok.2 (targetAddr_isSome ht), hx, hy, hd, hr, memWrite_of_legal hl, bind,
    Except.bind, pure, Except.pure, aluNext]

/-- The ALU's fault is reported when the operands and the target are good (R170). -/
theorem binaryEffect_alu_fault {alu : Config → Cell → Cell → Except Raise Cell} {a b dst : Operand} {cfg : Config}
    {p : Processor} {x y : Cell} {r : Raise} {d : Int} (hx : p.readOperand cfg 1 a = .ok x)
    (hy : p.readOperand cfg 2 b = .ok y) (hd : p.writeAddr cfg 3 dst = .ok d) (hr : alu cfg x y = .error r) :
    binaryEffect alu a b dst cfg p = .error r := by
  obtain ⟨ht, -⟩ := writeAddr_eq_ok.1 hd
  simp [binaryEffect, checkTarget_eq_ok.2 (targetAddr_isSome ht), hx, hy, hd, hr, bind, Except.bind]

theorem binaryEffect_eq_ok {alu : Config → Cell → Cell → Except Raise Cell} {a b dst : Operand} {cfg : Config}
    {p p' : Processor} {o : StepOutcome} (h : binaryEffect alu a b dst cfg p = .ok (p', o)) :
    ∃ x y d r, p.readOperand cfg 1 a = .ok x ∧ p.readOperand cfg 2 b = .ok y ∧ p.writeAddr cfg 3 dst = .ok d ∧
      alu cfg x y = .ok r ∧ p' = { p with mem := Memory.write p.mem d.toNat r, ip := p.ip + 4 } ∧
      o = .progress none := by
  have h0 := h
  simp only [binaryEffect, bind, Except.bind, pure, Except.pure] at h
  cases hc : checkTarget 3 dst with
  | error r => simp [hc] at h
  | ok _ =>
  cases hx : p.readOperand cfg 1 a with
  | error r => simp [hc, hx] at h
  | ok x =>
  cases hy : p.readOperand cfg 2 b with
  | error r => simp [hc, hx, hy] at h
  | ok y =>
  cases hd : p.writeAddr cfg 3 dst with
  | error r => simp [hc, hx, hy, hd] at h
  | ok d =>
  cases hr : alu cfg x y with
  | error r => simp [hc, hx, hy, hd, hr] at h
  | ok r =>
    rw [binaryEffect_of hx hy hd hr] at h0
    cases h0
    exact ⟨x, y, d, r, rfl, rfl, rfl, hr, rfl, rfl⟩

/-! ## IN and OUT -/

theorem inputEffect_of_cons {dst : Operand} {cfg : Config} {p : Processor} {d : Int} {v : Cell} {q : List Cell}
    (hd : p.writeAddr cfg 1 dst = .ok d) (hq : p.inQ = v :: q) :
    inputEffect dst cfg p =
      .ok ({ p with inQ := q, mem := Memory.write p.mem d.toNat v, ip := p.ip + 2, status := .running },
        .progress none) := by
  obtain ⟨ht, hl⟩ := writeAddr_eq_ok.1 hd
  simp [inputEffect, checkTarget_eq_ok.2 (targetAddr_isSome ht), hd, hq, memWrite_of_legal hl, bind, Except.bind, pure,
    Except.pure, aluNext]

theorem inputEffect_of_nil {dst : Operand} {cfg : Config} {p : Processor} {d : Int}
    (hd : p.writeAddr cfg 1 dst = .ok d) (hq : p.inQ = []) :
    inputEffect dst cfg p = .ok ({ p with status := .blocked }, .starved) := by
  obtain ⟨ht, -⟩ := writeAddr_eq_ok.1 hd
  simp [inputEffect, checkTarget_eq_ok.2 (targetAddr_isSome ht), hd, hq, bind, Except.bind, pure, Except.pure]

theorem inputEffect_eq_ok {dst : Operand} {cfg : Config} {p p' : Processor} {o : StepOutcome}
    (h : inputEffect dst cfg p = .ok (p', o)) :
    ∃ d, p.writeAddr cfg 1 dst = .ok d ∧
      ((p.inQ = [] ∧ p' = { p with status := .blocked } ∧ o = .starved) ∨
        ∃ v q, p.inQ = v :: q ∧
          p' = { p with inQ := q, mem := Memory.write p.mem d.toNat v, ip := p.ip + 2, status := .running } ∧
          o = .progress none) := by
  have h0 := h
  simp only [inputEffect, bind, Except.bind] at h
  cases hc : checkTarget 1 dst with
  | error r => simp [hc] at h
  | ok _ =>
  cases hd : p.writeAddr cfg 1 dst with
  | error r => simp [hc, hd] at h
  | ok d =>
  refine ⟨d, rfl, ?_⟩
  cases hq : p.inQ with
  | nil =>
    rw [inputEffect_of_nil hd hq] at h0
    cases h0
    exact .inl ⟨rfl, by rw [← hq], rfl⟩
  | cons v q =>
    rw [inputEffect_of_cons hd hq] at h0
    cases h0
    exact .inr ⟨v, q, rfl, rfl, rfl⟩

theorem outputEffect_of {v : Operand} {cfg : Config} {p : Processor} {x : Cell} (hx : p.readOperand cfg 1 v = .ok x)
    (hq : queueFull cfg p.outQ = false) :
    outputEffect v cfg p =
      .ok ({ p with outQ := p.outQ ++ [x], lastOutput := some x, ip := p.ip + 2 }, .progress (some x)) := by
  simp [outputEffect, hx, pushQueue_eq_ok.2 ⟨hq, rfl⟩, bind, Except.bind, pure, Except.pure, aluNext]

theorem outputEffect_full {v : Operand} {cfg : Config} {p : Processor} {x : Cell}
    (hx : p.readOperand cfg 1 v = .ok x) (hq : queueFull cfg p.outQ = true) :
    outputEffect v cfg p = .error ⟨.queueOverflow, 0, none⟩ := by
  simp [outputEffect, hx, pushQueue_eq_error.2 ⟨hq, rfl⟩, bind, Except.bind]

theorem outputEffect_eq_ok {v : Operand} {cfg : Config} {p p' : Processor} {o : StepOutcome}
    (h : outputEffect v cfg p = .ok (p', o)) :
    ∃ x, p.readOperand cfg 1 v = .ok x ∧ queueFull cfg p.outQ = false ∧
      p' = { p with outQ := p.outQ ++ [x], lastOutput := some x, ip := p.ip + 2 } ∧ o = .progress (some x) := by
  have h0 := h
  simp only [outputEffect, bind, Except.bind] at h
  cases hx : p.readOperand cfg 1 v with
  | error r => simp [hx] at h
  | ok x =>
  cases hq : queueFull cfg p.outQ with
  | true =>
    rw [outputEffect_full hx hq] at h0
    cases h0
  | false =>
    rw [outputEffect_of hx hq] at h0
    cases h0
    exact ⟨x, rfl, rfl, rfl, rfl⟩

/-! ## JT, JF and HLT -/

theorem jumpTarget_eq_ok {cfg : Config} {p : Processor} {t : Operand} {n : Nat} :
    jumpTarget cfg p t = .ok n ↔ ∃ x, p.readOperand cfg 2 t = .ok x ∧ 0 ≤ x ∧ n = x.toNat := by
  simp only [jumpTarget, bind, Except.bind]
  cases hx : p.readOperand cfg 2 t with
  | error r => simp
  | ok x =>
    dsimp only
    split_ifs with hn
    · constructor
      · intro h
        cases h
      · rintro ⟨y, hy, h0, -⟩
        cases hy
        exact absurd hn (not_lt.2 h0)
    · constructor
      · intro h
        cases h
        exact ⟨x, rfl, not_lt.1 hn, rfl⟩
      · rintro ⟨y, hy, -, rfl⟩
        cases hy
        rfl

theorem jumpEffect_taken {taken : Cell → Bool} {c t : Operand} {cfg : Config} {p : Processor} {x : Cell} {n : Nat}
    (hx : p.readOperand cfg 1 c = .ok x) (ht : taken x = true) (hn : jumpTarget cfg p t = .ok n) :
    jumpEffect taken c t cfg p = .ok ({ p with ip := n }, .progress none) := by
  simp [jumpEffect, hx, ht, hn, bind, Except.bind, pure, Except.pure]

theorem jumpEffect_not_taken {taken : Cell → Bool} {c t : Operand} {cfg : Config} {p : Processor} {x : Cell}
    (hx : p.readOperand cfg 1 c = .ok x) (ht : taken x = false) :
    jumpEffect taken c t cfg p = .ok ({ p with ip := p.ip + 3 }, .progress none) := by
  simp [jumpEffect, hx, ht, bind, Except.bind, pure, Except.pure, aluNext]

theorem jumpEffect_target_fault {taken : Cell → Bool} {c t : Operand} {cfg : Config} {p : Processor} {x : Cell}
    {r : Raise} (hx : p.readOperand cfg 1 c = .ok x) (ht : taken x = true) (hn : jumpTarget cfg p t = .error r) :
    jumpEffect taken c t cfg p = .error r := by
  simp [jumpEffect, hx, ht, hn, bind, Except.bind]

theorem jumpEffect_eq_ok {taken : Cell → Bool} {c t : Operand} {cfg : Config} {p p' : Processor} {o : StepOutcome}
    (h : jumpEffect taken c t cfg p = .ok (p', o)) :
    ∃ x, p.readOperand cfg 1 c = .ok x ∧ o = .progress none ∧
      ((taken x = true ∧ ∃ n, jumpTarget cfg p t = .ok n ∧ p' = { p with ip := n }) ∨
        (taken x = false ∧ p' = { p with ip := p.ip + 3 })) := by
  have h0 := h
  simp only [jumpEffect, bind, Except.bind] at h
  cases hx : p.readOperand cfg 1 c with
  | error r => simp [hx] at h
  | ok x =>
  refine ⟨x, rfl, ?_⟩
  cases ht : taken x with
  | true =>
    cases hn : jumpTarget cfg p t with
    | error r =>
      rw [jumpEffect_target_fault hx ht hn] at h0
      cases h0
    | ok n =>
      rw [jumpEffect_taken hx ht hn] at h0
      cases h0
      exact ⟨rfl, .inl ⟨rfl, n, rfl, rfl⟩⟩
  | false =>
    rw [jumpEffect_not_taken hx ht] at h0
    cases h0
    exact ⟨rfl, .inr ⟨rfl, rfl⟩⟩

/-! ## ARB -/

theorem relativeBaseEffect_of {v : Operand} {cfg : Config} {p : Processor} {x r : Cell}
    (hx : p.readOperand cfg 1 v = .ok x) (hr : aluRb cfg p.rb x = .ok r) :
    relativeBaseEffect v cfg p = .ok ({ p with rb := r, ip := p.ip + 2 }, .progress none) := by
  simp [relativeBaseEffect, hx, hr, bind, Except.bind, pure, Except.pure, aluNext]

theorem relativeBaseEffect_alu_fault {v : Operand} {cfg : Config} {p : Processor} {x : Cell} {r : Raise}
    (hx : p.readOperand cfg 1 v = .ok x) (hr : aluRb cfg p.rb x = .error r) :
    relativeBaseEffect v cfg p = .error r := by
  simp [relativeBaseEffect, hx, hr, bind, Except.bind]

theorem relativeBaseEffect_eq_ok {v : Operand} {cfg : Config} {p p' : Processor} {o : StepOutcome}
    (h : relativeBaseEffect v cfg p = .ok (p', o)) :
    ∃ x r, p.readOperand cfg 1 v = .ok x ∧ aluRb cfg p.rb x = .ok r ∧
      p' = { p with rb := r, ip := p.ip + 2 } ∧ o = .progress none := by
  have h0 := h
  simp only [relativeBaseEffect, bind, Except.bind] at h
  cases hx : p.readOperand cfg 1 v with
  | error r => simp [hx] at h
  | ok x =>
  cases hr : aluRb cfg p.rb x with
  | error r => simp [hx, hr] at h
  | ok r =>
    rw [relativeBaseEffect_of hx hr] at h0
    cases h0
    exact ⟨x, r, rfl, hr, rfl, rfl⟩

/-! ## All ten at once -/

/-- Everything an instruction that does not fault can do to a Processor. -/
theorem effect_cases {i : Instr} {cfg : Config} {p p' : Processor} {o : StepOutcome}
    (h : effect i cfg p = .ok (p', o)) :
    (∃ d v, legalAddr cfg d ∧ i.operands.length = 3 ∧ o = .progress none ∧
        p' = { p with mem := Memory.write p.mem d.toNat v, ip := p.ip + 4 }) ∨
      (∃ w, i = .inp w ∧ o = .starved ∧ p.inQ = [] ∧ p' = { p with status := .blocked }) ∨
      (∃ w d v q, i = .inp w ∧ o = .progress none ∧ p.inQ = v :: q ∧ legalAddr cfg d ∧
        p' = { p with inQ := q, mem := Memory.write p.mem d.toNat v, ip := p.ip + 2, status := .running }) ∨
      (∃ w x, i = .out w ∧ o = .progress (some x) ∧ queueFull cfg p.outQ = false ∧
        p' = { p with outQ := p.outQ ++ [x], lastOutput := some x, ip := p.ip + 2 }) ∨
      (∃ n : Nat, i.operands.length = 2 ∧ o = .progress none ∧
        ((∃ t ∈ i.operands, ∃ y, p.readOperand cfg 2 t = .ok y ∧ (n : Int) = y) ∨ n = p.ip + 3) ∧
        p' = { p with ip := n }) ∨
      (∃ w r, i = .arb w ∧ o = .progress none ∧ p' = { p with rb := r, ip := p.ip + 2 }) ∨
      (i = .hlt ∧ o = .progress none ∧ p' = { p with status := .halted }) := by
  have binary : ∀ {alu a b d}, i.operands.length = 3 → binaryEffect alu a b d cfg p = .ok (p', o) →
      ∃ d v, legalAddr cfg d ∧ i.operands.length = 3 ∧ o = .progress none ∧
        p' = { p with mem := Memory.write p.mem d.toNat v, ip := p.ip + 4 } := by
    intro alu a b d hl hb
    obtain ⟨-, -, d, r, -, -, hd, -, rfl, rfl⟩ := binaryEffect_eq_ok hb
    exact ⟨d, r, (writeAddr_eq_ok.1 hd).2, hl, rfl, rfl⟩
  have jump : ∀ {taken c t}, i.operands = [c, t] → jumpEffect taken c t cfg p = .ok (p', o) →
      ∃ n : Nat, i.operands.length = 2 ∧ o = .progress none ∧
        ((∃ t ∈ i.operands, ∃ y, p.readOperand cfg 2 t = .ok y ∧ (n : Int) = y) ∨ n = p.ip + 3) ∧
        p' = { p with ip := n } := by
    intro taken c t hl hj
    obtain ⟨x, -, rfl, ⟨-, n, hn, rfl⟩ | ⟨-, rfl⟩⟩ := jumpEffect_eq_ok hj
    · obtain ⟨y, hy, h0, rfl⟩ := jumpTarget_eq_ok.1 hn
      exact ⟨_, by simp [hl], rfl, .inl ⟨t, by simp [hl], y, hy, Int.toNat_of_nonneg h0⟩, rfl⟩
    · exact ⟨_, by simp [hl], rfl, .inr rfl, rfl⟩
  cases i with
  | add a b d => exact .inl (binary rfl h)
  | mul a b d => exact .inl (binary rfl h)
  | lt a b d => exact .inl (binary (alu := fun _ x y => .ok (aluLt x y)) rfl h)
  | eq a b d => exact .inl (binary (alu := fun _ x y => .ok (aluEq x y)) rfl h)
  | inp w =>
    obtain ⟨d, hd, ⟨hq, rfl, rfl⟩ | ⟨v, q, hq, rfl, rfl⟩⟩ := inputEffect_eq_ok h
    · exact .inr (.inl ⟨w, rfl, rfl, hq, rfl⟩)
    · exact .inr (.inr (.inl ⟨w, d, v, q, rfl, rfl, hq, (writeAddr_eq_ok.1 hd).2, rfl⟩))
  | out w =>
    obtain ⟨x, -, hq, rfl, rfl⟩ := outputEffect_eq_ok h
    exact .inr (.inr (.inr (.inl ⟨w, x, rfl, rfl, hq, rfl⟩)))
  | jt c t => exact .inr (.inr (.inr (.inr (.inl (jump rfl h)))))
  | jf c t => exact .inr (.inr (.inr (.inr (.inl (jump rfl h)))))
  | arb w =>
    obtain ⟨x, r, -, -, rfl, rfl⟩ := relativeBaseEffect_eq_ok h
    exact .inr (.inr (.inr (.inr (.inr (.inl ⟨w, r, rfl, rfl, rfl⟩)))))
  | hlt =>
    cases h
    exact .inr (.inr (.inr (.inr (.inr (.inr ⟨rfl, rfl, rfl⟩)))))

end Sys2Proof.Machine
end

