-- ==== Sys2Proof/Laws/PerInstr.lean ====
section
/-! SUPPORT. Statements about every instruction as syntax, one lemma per constructor. -/

namespace Sys2Proof.Laws

/-! ## The encoded length: `1 + n` cells, at most 4 (30_encoding.md R75, R89) -/

/-- The encoding has the instruction's length, which its opcode alone tells. -/
def EncodedLength.Statement (i : Instr) : Prop :=
  (encode i).length = i.length ∧ i.length = 1 + i.opcode.arity ∧ i.length ≤ 4

theorem EncodedLength.add (a b dst : Operand) : EncodedLength.Statement (.add a b dst) := ⟨rfl, rfl, by simp [Instr.length, Instr.operands]⟩
theorem EncodedLength.mul (a b dst : Operand) : EncodedLength.Statement (.mul a b dst) := ⟨rfl, rfl, by simp [Instr.length, Instr.operands]⟩
theorem EncodedLength.inp (dst : Operand) : EncodedLength.Statement (.inp dst) := ⟨rfl, rfl, by simp [Instr.length, Instr.operands]⟩
theorem EncodedLength.out (v : Operand) : EncodedLength.Statement (.out v) := ⟨rfl, rfl, by simp [Instr.length, Instr.operands]⟩
theorem EncodedLength.jt (cond target : Operand) : EncodedLength.Statement (.jt cond target) := ⟨rfl, rfl, by simp [Instr.length, Instr.operands]⟩
theorem EncodedLength.jf (cond target : Operand) : EncodedLength.Statement (.jf cond target) := ⟨rfl, rfl, by simp [Instr.length, Instr.operands]⟩
theorem EncodedLength.lt (a b dst : Operand) : EncodedLength.Statement (.lt a b dst) := ⟨rfl, rfl, by simp [Instr.length, Instr.operands]⟩
theorem EncodedLength.eq (a b dst : Operand) : EncodedLength.Statement (.eq a b dst) := ⟨rfl, rfl, by simp [Instr.length, Instr.operands]⟩
theorem EncodedLength.arb (v : Operand) : EncodedLength.Statement (.arb v) := ⟨rfl, rfl, by simp [Instr.length, Instr.operands]⟩
theorem EncodedLength.hlt : EncodedLength.Statement .hlt := ⟨rfl, rfl, by simp [Instr.length, Instr.operands]⟩

/-! ## The write parameter (40_pipeline.md R100, R115) -/

/-- The write parameter is the last one, and its index is the opcode's `wparam`. -/
def WriteParameter.Statement (i : Instr) : Prop :=
  (i.writeParam.map Prod.fst).getD 0 = i.opcode.wparam ∧
    ∀ j w, i.writeParam = some (j, w) → j = i.operands.length ∧ i.operands.getLast? = some w

theorem WriteParameter.add (a b dst : Operand) : WriteParameter.Statement (.add a b dst) :=
  ⟨rfl, by rintro j w ⟨⟩; exact ⟨rfl, rfl⟩⟩
theorem WriteParameter.mul (a b dst : Operand) : WriteParameter.Statement (.mul a b dst) :=
  ⟨rfl, by rintro j w ⟨⟩; exact ⟨rfl, rfl⟩⟩
theorem WriteParameter.inp (dst : Operand) : WriteParameter.Statement (.inp dst) :=
  ⟨rfl, by rintro j w ⟨⟩; exact ⟨rfl, rfl⟩⟩
theorem WriteParameter.out (v : Operand) : WriteParameter.Statement (.out v) := ⟨rfl, by rintro j w ⟨⟩⟩
theorem WriteParameter.jt (cond target : Operand) : WriteParameter.Statement (.jt cond target) :=
  ⟨rfl, by rintro j w ⟨⟩⟩
theorem WriteParameter.jf (cond target : Operand) : WriteParameter.Statement (.jf cond target) :=
  ⟨rfl, by rintro j w ⟨⟩⟩
theorem WriteParameter.lt (a b dst : Operand) : WriteParameter.Statement (.lt a b dst) :=
  ⟨rfl, by rintro j w ⟨⟩; exact ⟨rfl, rfl⟩⟩
theorem WriteParameter.eq (a b dst : Operand) : WriteParameter.Statement (.eq a b dst) :=
  ⟨rfl, by rintro j w ⟨⟩; exact ⟨rfl, rfl⟩⟩
theorem WriteParameter.arb (v : Operand) : WriteParameter.Statement (.arb v) := ⟨rfl, by rintro j w ⟨⟩⟩
theorem WriteParameter.hlt : WriteParameter.Statement .hlt := ⟨rfl, by rintro j w ⟨⟩⟩

end Sys2Proof.Laws
end

