-- ==== Sys2Proof/Laws/Step.lean ====
section
/-! SUPPORT. What one step can do, said once: the gate, the fetch, the instruction, the slot. -/

namespace Sys2Proof.Machine

/-! ## Values in range (10_state.md R22, R26, R27, 20_memory.md R51) -/

/-- The raw parameters of a fetched instruction are cells of memory. -/
theorem fetch_raw_fits {cfg : Config} {p : Processor} {i : Instr} (hw : 2 ≤ cfg.cellW) (hp : p.CellsFit cfg)
    (h : p.fetch cfg = .ok i) {o : Operand} (ho : o ∈ i.operands) : fitsW cfg o.raw := by
  have h0 := (fitsW_bit hw).1
  obtain ⟨hd, -, -, rfl⟩ := fetch_eq_ok.1 h
  rcases Header.instr_raw ho with hr | hr
  · obtain ⟨k, -, hk⟩ := List.mem_map.1 hr
    exact hk ▸ Memory.read_fits hp.mem h0 _
  · exact hr ▸ h0

theorem readOperand_fits {cfg : Config} {p : Processor} {j : Nat} {o : Operand} {x : Cell} (hw : 2 ≤ cfg.cellW)
    (hp : p.CellsFit cfg) (ho : fitsW cfg o.raw) (h : p.readOperand cfg j o = .ok x) : fitsW cfg x := by
  obtain rfl | ⟨a, rfl⟩ := readOperand_source h
  · exact ho
  · exact Memory.read_fits hp.mem (fitsW_bit hw).1 a

/-- Every value an instruction writes or reports is a value of a cell, and so is every ip it jumps to. -/
theorem effect_fits {cfg : Config} {p p' : Processor} {i : Instr} {o : StepOutcome} (hw : 2 ≤ cfg.cellW)
    (hp : p.CellsFit cfg) (hi : ∀ q ∈ i.operands, fitsW cfg q.raw) (h : effect i cfg p = .ok (p', o)) :
    p'.CellsFit cfg ∧ (∀ v, o = .progress (some v) → fitsW cfg v) ∧
      ((p'.ip : Int) ≤ cfg.cellMax ∨ p'.ip ≤ p.ip + i.length) := by
  have stored : ∀ {v : Cell} {d : Int} {n : Nat}, fitsW cfg v →
      ({ p with mem := Memory.write p.mem d.toNat v, ip := n } : Processor).CellsFit cfg := fun hv =>
    ⟨hp.rb, Memory.write_fits hp.mem hv _, hp.inQ, hp.outQ, hp.lastOutput⟩
  have binary : ∀ {alu : Config → Cell → Cell → Except Raise Cell} {a b d : Operand},
      (∀ x y r, alu cfg x y = .ok r → fitsW cfg r) → binaryEffect alu a b d cfg p = .ok (p', o) →
      p'.CellsFit cfg ∧ (∀ v, o = .progress (some v) → fitsW cfg v) ∧
        ((p'.ip : Int) ≤ cfg.cellMax ∨ p'.ip ≤ p.ip + 4) := by
    intro alu a b d ha hb
    obtain ⟨x, y, d, r, -, -, -, hr, rfl, rfl⟩ := binaryEffect_eq_ok hb
    exact ⟨stored (ha x y r hr), fun v hv => (by cases hv), .inr le_rfl⟩
  have bit : ∀ r : Cell, r = 1 ∨ r = 0 → fitsW cfg r := by
    rintro r (rfl | rfl)
    · exact (fitsW_bit hw).2
    · exact (fitsW_bit hw).1
  have jump : ∀ {taken : Cell → Bool} {c t : Operand}, i.operands = [c, t] →
      jumpEffect taken c t cfg p = .ok (p', o) →
      p'.CellsFit cfg ∧ (∀ v, o = .progress (some v) → fitsW cfg v) ∧
        ((p'.ip : Int) ≤ cfg.cellMax ∨ p'.ip ≤ p.ip + 3) := by
    intro taken c t hl hj
    obtain ⟨x, -, rfl, ⟨-, n, hn, rfl⟩ | ⟨-, rfl⟩⟩ := jumpEffect_eq_ok hj
    · obtain ⟨y, hy, h0, rfl⟩ := jumpTarget_eq_ok.1 hn
      refine ⟨⟨hp.rb, hp.mem, hp.inQ, hp.outQ, hp.lastOutput⟩, fun v hv => (by cases hv), .inl ?_⟩
      exact (Int.toNat_of_nonneg h0).le.trans (readOperand_fits hw hp (hi t (by simp [hl])) hy).2
    · exact ⟨⟨hp.rb, hp.mem, hp.inQ, hp.outQ, hp.lastOutput⟩, fun v hv => (by cases hv), .inr le_rfl⟩
  cases i with
  | add a b d => exact binary (fun x y r hr => fix_fits (by omega) hr) h
  | mul a b d => exact binary (fun x y r hr => fix_fits (by omega) hr) h
  | lt a b d =>
    refine binary (alu := fun _ x y => .ok (aluLt x y)) (fun x y r hr => bit r ?_) h
    cases hr
    unfold aluLt
    split_ifs <;> simp
  | eq a b d =>
    refine binary (alu := fun _ x y => .ok (aluEq x y)) (fun x y r hr => bit r ?_) h
    cases hr
    unfold aluEq
    split_ifs <;> simp
  | inp w =>
    obtain ⟨d, -, ⟨-, rfl, rfl⟩ | ⟨v, q, hq, rfl, rfl⟩⟩ := inputEffect_eq_ok h
    · exact ⟨⟨hp.rb, hp.mem, hp.inQ, hp.outQ, hp.lastOutput⟩, fun v hv => (by cases hv), .inr (Nat.le_add_right _ _)⟩
    · have hv := hp.inQ v (by simp [hq])
      exact ⟨⟨hp.rb, Memory.write_fits hp.mem hv _, fun u hu => hp.inQ u (by simp [hq, hu]), hp.outQ, hp.lastOutput⟩,
        fun v hv => (by cases hv), .inr le_rfl⟩
  | out w =>
    obtain ⟨x, hx, -, rfl, rfl⟩ := outputEffect_eq_ok h
    have hf := readOperand_fits hw hp (hi w (by simp [Instr.operands])) hx
    refine ⟨⟨hp.rb, hp.mem, hp.inQ, ?_, ?_⟩, ?_, .inr le_rfl⟩
    · intro u hu
      rcases List.mem_append.1 hu with hu | hu
      · exact hp.outQ u hu
      · exact List.mem_singleton.1 hu ▸ hf
    · rintro v ⟨⟩
      exact hf
    · rintro v ⟨⟩
      exact hf
  | jt c t => exact jump rfl h
  | jf c t => exact jump rfl h
  | arb w =>
    obtain ⟨x, r, -, hr, rfl, rfl⟩ := relativeBaseEffect_eq_ok h
    exact ⟨⟨fix_fits (by omega) hr, hp.mem, hp.inQ, hp.outQ, hp.lastOutput⟩, fun v hv => (by cases hv), .inr le_rfl⟩
  | hlt =>
    cases h
    exact ⟨⟨hp.rb, hp.mem, hp.inQ, hp.outQ, hp.lastOutput⟩, fun v hv => (by cases hv), .inr (Nat.le_add_right _ _)⟩

namespace State

/-! ## Frames of the shared operations -/

theorem sameAround_commit (s : State) (p : Processor) (o : StepOutcome) : s.SameAround (s.commit p o) where
  cfg := rfl
  cursor := rfl
  ring := rfl
  count := by simp
  others k hk := setCurrent_other s p hk

theorem sameAround_takeFault (s : State) (p : Processor) (r : Raise) : s.SameAround (s.takeFault p r) :=
  sameAround_commit s _ _

/-! ## One step of a Processor -/

theorem stepCurrent_of_stopped {s : State} {p : Processor} (h : s.current = some p) (hs : ¬ p.status.Runs) :
    s.stepCurrent = .next { s with outcome := some .idle } := by
  unfold stepCurrent
  rw [h]
  cases hp : p.status <;> simp_all

theorem stepCurrent_of_fetch_error {s : State} {p : Processor} {r : Raise} (h : s.current = some p)
    (hs : p.status.Runs) (hf : p.fetch s.cfg = .error r) : s.stepCurrent = .next (s.takeFault p r) := by
  unfold stepCurrent
  rcases hs with hs | hs <;> simp [h, hs, hf]

theorem stepCurrent_of_fetch {s : State} {p : Processor} {i : Instr} (h : s.current = some p)
    (hs : p.status.Runs) (hf : p.fetch s.cfg = .ok i) : s.stepCurrent = exec i s := by
  unfold stepCurrent
  rcases hs with hs | hs <;> simp [h, hs, hf]

/-- Everything a step of the Processor at the cursor can do. -/
theorem stepCurrent_cases {s s' : State} (h : s.stepCurrent = .next s') :
    ∃ p, s.current = some p ∧
      ((¬ p.status.Runs ∧ s' = { s with outcome := some .idle }) ∨
        (p.status.Runs ∧ ∃ r, (p.fetch s.cfg = .error r ∨ ∃ i, p.fetch s.cfg = .ok i ∧ effect i s.cfg p = .error r) ∧
          s' = s.takeFault p r) ∨
        (p.status.Runs ∧ ∃ i p' o, p.fetch s.cfg = .ok i ∧ effect i s.cfg p = .ok (p', o) ∧ s' = s.commit p' o)) := by
  cases hc : s.current with
  | none => simp [stepCurrent, hc] at h
  | some p =>
    refine ⟨p, rfl, ?_⟩
    by_cases hs : p.status.Runs
    · cases hf : p.fetch s.cfg with
      | error r =>
        rw [stepCurrent_of_fetch_error hc hs hf] at h
        cases h
        exact .inr (.inl ⟨hs, r, .inl rfl, rfl⟩)
      | ok i =>
        rw [stepCurrent_of_fetch hc hs hf, exec_of_current hc] at h
        cases h
        cases he : effect i s.cfg p with
        | error r => exact .inr (.inl ⟨hs, r, .inr ⟨i, rfl, he⟩, rfl⟩)
        | ok e => exact .inr (.inr ⟨hs, i, e.1, e.2, rfl, he, rfl⟩)
    · rw [stepCurrent_of_stopped hc hs] at h
      cases h
      exact .inl ⟨hs, rfl⟩

/-- With a Processor at the cursor a step always has a next state. -/
theorem stepCurrent_next {s : State} {p : Processor} (h : s.current = some p) : ∃ s', s.stepCurrent = .next s' := by
  by_cases hs : p.status.Runs
  · cases hf : p.fetch s.cfg with
    | error r => exact ⟨_, stepCurrent_of_fetch_error h hs hf⟩
    | ok i => exact ⟨_, (stepCurrent_of_fetch h hs hf).trans (exec_of_current h i)⟩
  · exact ⟨_, stepCurrent_of_stopped h hs⟩

theorem stepCurrent_sameAround {s s' : State} (h : s.stepCurrent = .next s') : s.SameAround s' := by
  obtain ⟨p, -, ⟨-, rfl⟩ | ⟨-, r, -, rfl⟩ | ⟨-, i, p', o, -, -, rfl⟩⟩ := stepCurrent_cases h
  · exact ⟨rfl, rfl, rfl, rfl, fun _ _ => rfl⟩
  · exact sameAround_takeFault _ _ _
  · exact sameAround_commit _ _ _

/-! ## The slot -/

theorem slotStep_eq_next {s s' : State} {r : Ring} :
    s.slotStep r = .next s' ↔ ∃ s₁, s.stepCurrent = .next s₁ ∧ s' = s₁.endSlot r := by
  unfold slotStep
  cases s.stepCurrent with
  | next s₁ => simp [eq_comm]
  | fault f => simp
  | refused f => simp

/-- Everything a slot can do before its step: no carry, a carry that does not fit, a carry injected. -/
theorem slot_cases {s s' : State} {r : Ring} (h : s.slot r = .next s') :
    ∃ p, s.current = some p ∧
      ((r.carry.valid = false ∧ s.slotStep r = .next s') ∨
        (r.carry.valid = true ∧ queueFull s.cfg p.inQ = true ∧
          s' = { s with ring := some (r.abort s.cursor (schedulerRecord .queueOverflow none)) }) ∨
        (r.carry.valid = true ∧ queueFull s.cfg p.inQ = false ∧ ∃ p', p.inject s.cfg r.carry.value = .ok p' ∧
          ({ s.setCurrent p' with ring := some { r with carry := { r.carry with valid := false } } } : State).slotStep
            { r with carry := { r.carry with valid := false } } = .next s')) := by
  unfold slot at h
  cases hc : s.current with
  | none => simp [hc] at h
  | some p =>
    refine ⟨p, rfl, ?_⟩
    simp only [hc] at h
    cases hv : r.carry.valid with
    | false =>
      rw [hv] at h
      exact .inl ⟨rfl, h⟩
    | true =>
      rw [hv, if_pos rfl] at h
      cases hi : p.inject s.cfg r.carry.value with
      | error e =>
        obtain ⟨hq, rfl⟩ := inject_eq_error.1 hi
        rw [hi] at h
        cases h
        exact .inr (.inl ⟨rfl, hq, rfl⟩)
      | ok p' =>
        rw [hi] at h
        exact .inr (.inr ⟨rfl, (inject_eq_ok.1 hi).1, p', rfl, h⟩)

end State

/-- Everything a step of the block can do: a Processor's step, or a slot of a running ring. -/
theorem step_cases {s s' : State} (h : step s = .next s') :
    (s.ring = none ∧ s.stepCurrent = .next s') ∨
      ∃ r, s.ring = some r ∧ r.nstatus = .running ∧ s.slot r = .next s' := by
  unfold step State.turn at h
  cases hr : s.ring with
  | none =>
    rw [hr] at h
    exact .inl ⟨rfl, h⟩
  | some r =>
    rw [hr] at h
    refine .inr ⟨r, rfl, ?_⟩
    cases hn : r.nstatus <;> simp [hn] at h
    exact ⟨rfl, h⟩

theorem step_single {s : State} (h : s.ring = none) : step s = s.stepCurrent := by
  simp [step, State.turn, h]

theorem step_network {s : State} {r : Ring} (h : s.ring = some r) (hn : r.nstatus = .running) : step s = s.slot r := by
  simp [step, State.turn, h, hn]

end Sys2Proof.Machine
end

