-- ==== Sys2Proof/Machine/Assembler.lean ====
section
/-! DEFINITION. The assembly text (30_encoding.md R90, R91) and the image it stands for, on the host's side like the
image text of R55. Details that R90 does not give are in log 18. -/

namespace Sys2Proof.Machine

/-- An operand integer: written as a number, or as a label that names an address. -/
inductive AsmInt where
  | number (v : Int)
  | label (negated : Bool) (name : List Char)
deriving DecidableEq, Repr

/-- What a line holds beside its comment. -/
inductive AsmItem where
  /-- `name:`, the address of the next cell -/
  | label (name : List Char)
  /-- one cell of `.word v` -/
  | word (v : AsmInt)
  /-- `MNEMONIC op1, op2, op3` -/
  | instr (op : Opcode) (params : List (Mode × AsmInt))
deriving DecidableEq, Repr

/-! ## Reading a line -/

/-- The text before the first `;`. -/
def stripComment (t : List Char) : List Char := t.takeWhile (fun c => c ≠ ';')

/-- The characters of a label's name. -/
def isNameChar (c : Char) : Bool := c.isAlphanum || c = '_'

/-- A label's name: letters, digits and `_`, not a digit first, and not `rb`. -/
def isName (t : List Char) : Bool :=
  match t with
  | [] => false
  | c :: _ => !c.isDigit && t.all isNameChar && t ≠ ['r', 'b']

/-- A decimal integer with an optional sign, or a label. -/
def parseAsmInt (t : List Char) : Option AsmInt :=
  match parseInteger t with
  | some v => some (.number v)
  | none => if isName t then some (.label false t) else none

/-- The negative of an operand integer, for `[rb-n]`. -/
def AsmInt.negate : AsmInt → AsmInt
  | .number v => .number (-v)
  | .label b name => .label (!b) name

/-- The text between `[` and `]`: `n`, `rb+n` or `rb-n`. -/
def parseAddress (t : List Char) : Option (Mode × AsmInt) :=
  match t with
  | 'r' :: 'b' :: '+' :: r => (parseAsmInt r).map (fun n => (Mode.relative, n))
  | 'r' :: 'b' :: '-' :: r => (parseAsmInt r).map (fun n => (Mode.relative, n.negate))
  | r => (parseAsmInt r).map (fun n => (Mode.position, n))

/-- An operand: `[n]`, `#n`, `[rb+n]` or `[rb-n]`. -/
def parseAsmOperand (t : List Char) : Option (Mode × AsmInt) :=
  match t with
  | '#' :: r => (parseAsmInt r).map (fun n => (Mode.immediate, n))
  | '[' :: r =>
    match r.reverse with
    | ']' :: m => parseAddress m.reverse
    | _ => none
  | _ => none

/-- The mnemonic of a name (R78). -/
def Opcode.ofMnemonic? (t : List Char) : Option Opcode := Opcode.all.find? (fun o => o.mnemonic.toList = t)

/-- The parts of a comma-separated list, none of them for an empty text. -/
def commaParts (t : List Char) : List (List Char) :=
  if t.isEmpty then [] else (splitAtChar ',' t).map stripBlanks

/-- A statement without its labels: nothing, `.word v` (one cell for each value of a list), or an instruction with as
many operands as its arity. -/
def parseStatement (t : List Char) : Option (List AsmItem) :=
  let head := t.takeWhile (fun c => !isBlank c)
  let rest := stripBlanks (t.dropWhile (fun c => !isBlank c))
  if t.isEmpty then some []
  else if head = ".word".toList then
    match (commaParts rest).mapM parseAsmInt with
    | some (v :: vs) => some ((v :: vs).map AsmItem.word)
    | _ => none
  else
    match Opcode.ofMnemonic? head, (commaParts rest).mapM parseAsmOperand with
    | some op, some ps => if ps.length = op.arity then some [.instr op ps] else none
    | _, _ => none

/-- The labels of a line and the statement after them, from the parts between its `:`. -/
def parseLabelled : List (List Char) → Option (List AsmItem)
  | [] => some []
  | [t] => parseStatement (stripBlanks t)
  | n :: ts =>
    if isName (stripBlanks n) then (parseLabelled ts).map (fun items => .label (stripBlanks n) :: items) else none

/-- One line: its comment dropped, a carriage return before the line's end among the blanks. -/
def parseLine (t : List Char) : Option (List AsmItem) :=
  parseLabelled (splitAtChar ':' ((stripComment t).filter (fun c => c ≠ '\r')))

/-! ## Addresses and cells -/

/-- The number of cells of an item. -/
def AsmItem.size : AsmItem → Nat
  | .label _ => 0
  | .word _ => 1
  | .instr op _ => 1 + op.arity

/-- The addresses the labels name, the first item at `a`. -/
def labelTable : Nat → List AsmItem → List (List Char × Nat)
  | _, [] => []
  | a, .label n :: is => (n, a) :: labelTable a is
  | a, .word v :: is => labelTable (a + (AsmItem.word v).size) is
  | a, .instr op ps :: is => labelTable (a + (AsmItem.instr op ps).size) is

/-- The value of an operand integer, which must fit in a cell. -/
def AsmInt.resolve (cfg : Config) (table : List (List Char × Nat)) (n : AsmInt) : Option Cell :=
  let value : Option Int :=
    match n with
    | .number v => some v
    | .label negated name => (table.lookup name).map (fun a => if negated then -(a : Int) else (a : Int))
  match value with
  | none => none
  | some v => if fitsW cfg v then some v else none

/-- The cells of an item; an instruction must be well-formed, and its canonical word (R92) must fit in a cell. -/
def AsmItem.cells (cfg : Config) (table : List (List Char × Nat)) : AsmItem → Option (List Cell)
  | .label _ => some []
  | .word v => (v.resolve cfg table).map (fun c => [c])
  | .instr op ps =>
    match ps.mapM (fun p => p.2.resolve cfg table) with
    | none => none
    | some raws =>
      let i := (Header.mk op (ps.map Prod.fst)).instr raws
      if i.WellFormed ∧ fitsW cfg i.word then some (encode i) else none

/-- The image of an assembly text, or none where the text is no program of R90. -/
def assemble (cfg : Config) (text : List Char) : Option (List Cell) :=
  match (splitAtChar '\n' text).mapM parseLine with
  | none => none
  | some lines =>
    let table := labelTable 0 lines.flatten
    if (table.map Prod.fst).Nodup then (lines.flatten.mapM (AsmItem.cells cfg table)).map List.flatten else none

end Sys2Proof.Machine
end

