-- ==== Sys2Proof/Tests/Slice0.lean ====
section
/-! SUPPORT. Tests: ill-formed terms refused, words written out from the spec decoded, one step of each instruction on
the spec's own vectors (95_test_vectors.md), and for every statement with hypotheses a state that meets them. The
expected values are the spec's vectors, or worked out from the rule named. -/

namespace Sys2Proof.Tests

open Sys2Proof.Machine

/-! ## Builders -/

def pos (n : Cell) : Operand := ⟨.position, n⟩
def imm (n : Cell) : Operand := ⟨.immediate, n⟩
def rel (n : Cell) : Operand := ⟨.relative, n⟩

/-- The greatest and the least cell. -/
def big : Int := 9223372036854775807
def small : Int := -9223372036854775808

/-- A Processor with an image of these values and these inputs. -/
def proc (image inputs : List Cell) : Processor :=
  Processor.fresh image inputs

/-- A machine of one Processor. -/
def alone (cfg : Config) (p : Processor) : State := { cfg := cfg, procs := [p], cursor := 0, ring := none, outcome := none }

/-- One Processor with the parameters of this hardware. -/
def single (image inputs : List Cell) : State := alone Config.hardware (proc image inputs)

/-- Small memories, wrapping arithmetic, queues of depth 1. -/
def cap (n : Nat) : Config := { Config.hardware with memCapacity := n }
def wrapping : Config := { Config.hardware with overflowPolicy := .wrap }
def depth1 : Config := { Config.hardware with queueDepth := some 1 }

/-- Two Processors in a ring, the one at `cursor` next. -/
def ring2 (cfg : Config) (cursor : Nat) (p q : Processor) (r : Ring) : State :=
  { cfg := { cfg with ringSize := 2 }, procs := [p, q], cursor := cursor, ring := some r, outcome := none }

/-- The scheduler's registers in a running ring with no carry. -/
def idleRing : Ring := { carry := ⟨false, 0⟩, passProgress := false, nstatus := .running, nfault := none, result := none }

/-- Cells of 8 bits, the least CELL_W (R6). -/
def narrow : Config := { Config.hardware with cellW := 8, memCapacity := 100 }

/-- What one step leaves of the Processor at the cursor. -/
def after (s : State) : Option Processor :=
  match step s with
  | .next s' => s'.procs[s.cursor]?
  | .fault _ => none
  | .refused _ => none

/-- What one step reports. -/
def reported (s : State) : Option StepOutcome :=
  match step s with
  | .next s' => s'.outcome
  | .fault _ => none
  | .refused _ => none

/-- One cell after one step. -/
def cellAfter (s : State) (a : Nat) : Option Cell := (after s).map (fun p => Memory.read p.mem a)

/-- The fault one step takes. -/
def faultAfter (s : State) : Option (FaultCode × Option Nat × Option Cell × Nat × Option Int) :=
  match reported s with
  | some (.fault f) => some (f.code, f.ip, f.word, f.param, f.detail)
  | _ => none

/-! ## WellFormed: an ill-formed term for each check (30_encoding.md R87) -/

theorem test_add_immediate_target_refused : ¬ (Instr.add (pos 0) (pos 0) (imm 0)).WellFormed := by decide
theorem test_mul_immediate_target_refused : ¬ (Instr.mul (pos 0) (pos 0) (imm 0)).WellFormed := by decide
theorem test_lt_immediate_target_refused : ¬ (Instr.lt (pos 0) (pos 0) (imm 0)).WellFormed := by decide
theorem test_eq_immediate_target_refused : ¬ (Instr.eq (pos 0) (pos 0) (imm 0)).WellFormed := by decide
theorem test_in_immediate_target_refused : ¬ (Instr.inp (imm 0)).WellFormed := by decide
theorem test_out_immediate_operand_allowed : (Instr.out (imm 0)).WellFormed := by decide

/-! ## Decoding words written out from the encodings (R78, R83, R92; V19) -/

theorem test_decode_add : decode [21101, 5, 6, 7, 8] = .ok (.add (imm 5) (imm 6) (rel 7), [8]) := by decide
theorem test_decode_mul : decode [1002, 4, 3, 4] = .ok (.mul (pos 4) (imm 3) (pos 4), []) := by decide
theorem test_decode_in : decode [203, 9] = .ok (.inp (rel 9), []) := by decide
theorem test_decode_out : decode [104, 42] = .ok (.out (imm 42), []) := by decide
theorem test_decode_jt : decode [105, 1, 7] = .ok (.jt (imm 1) (pos 7), []) := by decide
theorem test_decode_jf : decode [1006, 25, 20] = .ok (.jf (pos 25) (imm 20), []) := by decide
theorem test_decode_lt : decode [107, 0, 23, 25] = .ok (.lt (imm 0) (pos 23) (pos 25), []) := by decide
theorem test_decode_eq : decode [2008, 9, 8, 10] = .ok (.eq (pos 9) (rel 8) (pos 10), []) := by decide
theorem test_decode_arb : decode [109, (-34)] = .ok (.arb (imm (-34)), []) := by decide
theorem test_decode_hlt : decode [1099] = .ok (.hlt, []) := by decide
theorem test_decode_minus_one_is_not_hlt : decode [(-1)] = .error (.fault .invalidOpcode) := by decide
theorem test_decode_mode_before_target : decode [31101] = .error (.fault (.invalidParameterMode 3 3)) := by decide
theorem test_decode_lower_mode_first : decode [13101] = .error (.fault (.invalidParameterMode 2 3)) := by decide
theorem test_decode_ignored_then_checked : decode [123456701] = .error (.fault (.invalidParameterMode 1 7)) := by decide
theorem test_decode_immediate_target : decode [11101] = .error (.fault (.invalidWriteTarget 3)) := by decide
theorem test_decode_truncated : decode [1105, 1] = .error (.truncated 2) := by decide
theorem test_encode_in : encode (.inp (rel 7)) = [203, 7] := by decide
theorem test_encode_move : encode (.add (pos 4) (imm 0) (pos 5)) = [1001, 4, 0, 5] := by decide

/-! ## One step of each instruction (41 to 44; the vectors of 95_test_vectors.md) -/

theorem test_add_v1 : cellAfter (single [1, 0, 0, 0, 99] []) 0 = some 2 := by decide
theorem test_add_overflow_v17a :
    faultAfter (single [1101, big, 1, 0, 99] []) = some (.arithmeticOverflow, some 0, some 1101, 0, some (big + 1)) := by
  decide
theorem test_add_overflow_of_8_bits :
    faultAfter (alone narrow (proc [101, 127, 7, 7, 99] [])) = none ∧
      faultAfter (alone narrow (proc [101, 127, 0, 7, 99] [])) = some (.arithmeticOverflow, some 0, some 101, 0, some 228) ∧
      cellAfter (alone { narrow with overflowPolicy := .wrap } (proc [101, 127, 0, 7, 99] [])) 7 = some (-28) := by decide
theorem test_mul_v2 : cellAfter (single [2, 3, 0, 3, 99] []) 3 = some 6 := by decide
theorem test_mul_wrap_v18b : cellAfter (alone wrapping (proc [1102, -1, small, 0, 99] [])) 0 = some small := by decide
theorem test_in_v10_v11 :
    (after (single [3, 3, 99, 0] [7])).map (fun p => (Memory.read p.mem 3, p.ip, p.inQ)) = some (7, 2, []) ∧
      (after (single [3, 3, 99, 0] [])).map (fun p => (p.status, p.ip)) = some (.blocked, 0) := by decide
theorem test_in_bad_target_on_empty_queue_v24c :
    faultAfter (single [3, -1, 99] []) = some (.memoryFault, some 0, some 3, 1, some (-1)) := by decide
theorem test_out_v12 : (after (single [4, 2, 99] [])).map (fun p => (p.outQ, p.lastOutput, p.ip)) =
    some ([99], some 99, 2) := by decide
theorem test_out_full : faultAfter (alone depth1 { proc [4, 2, 99] [] with outQ := [0] }) =
    some (.queueOverflow, some 0, some 4, 0, none) := by decide
theorem test_jt_v13c : (after (single [1105, -3, 7, 0, 0, 0, 0, 99] [])).map Processor.ip = some 7 := by decide
theorem test_jt_lazy_target_v26a : (after (single [5, 4, -1, 99, 0] [])).map Processor.ip = some 3 := by decide
theorem test_jf_v14b : (after (single [1106, -5, 7, 99] [])).map Processor.ip = some 3 := by decide
theorem test_jf_negative_target_v14c :
    faultAfter (single [1106, 0, -1] []) = some (.memoryFault, some 0, some 1106, 2, some (-1)) := by decide
theorem test_lt_v8c : cellAfter (single [1107, small, big, 0, 99] []) 0 = some 1 := by decide
theorem test_lt_v8a : cellAfter (single [1107, 5, 5, 0, 99] []) 0 = some 0 := by decide
theorem test_eq_v9b : cellAfter (single [1108, 7, -7, 0, 99] []) 0 = some 0 := by decide
theorem test_eq_v9c : cellAfter (single [8, 0, 0, 5, 99, 9] []) 5 = some 1 := by decide
theorem test_arb_v16c : (after (single [209, 3, 99, 5] [])).map (fun p => (p.rb, p.ip)) = some (5, 2) := by decide
theorem test_arb_overflow_v28 :
    faultAfter (alone Config.hardware { proc [109, big, 109, 1, 99] [] with ip := 2, rb := big }) =
      some (.arithmeticOverflow, some 2, some 109, 0, some (big + 1)) := by decide
theorem test_hlt_v15 : (after (single [99] [])).map (fun p => (p.status, p.ip)) = some (.halted, 0) := by decide
theorem test_hlt_reports_progress : reported (single [99] []) = some (.progress none) := by decide

/-! ## Fetch, decoder and operand faults (V19, V23, V24) -/

theorem test_word_zero_v19a : faultAfter (single [0, 0, 0, 0, 99] []) = some (.invalidOpcode, some 0, some 0, 0, none) := by
  decide
theorem test_minus_99_v19l : faultAfter (single [-99] []) = some (.invalidOpcode, some 0, some (-99), 0, none) := by decide
theorem test_in_immediate_v19g : faultAfter (single [103, 0, 99] [1]) =
    some (.invalidWriteTarget, some 0, some 103, 1, none) := by decide
theorem test_fetch_beyond_v23a : faultAfter (alone (cap 4) { proc [2, 0, 0, 0] [] with ip := 4 }) =
    some (.memoryFault, some 4, none, 0, some 4) := by decide
theorem test_parameter_beyond_v23d : faultAfter (alone (cap 2) (proc [1, 0] [])) =
    some (.memoryFault, some 0, some 1, 2, some 2) := by decide
theorem test_write_beyond_v23e : faultAfter (alone (cap 8) (proc [1101, 1, 1, 8, 99] [])) =
    some (.memoryFault, some 0, some 1101, 3, some 8) := by decide
theorem test_relative_below_zero_v23c : faultAfter (single [204, -1, 99] []) =
    some (.memoryFault, some 0, some 204, 1, some (-1)) := by decide
theorem test_first_operand_first_v24d : faultAfter (single [1, -1, -2, 0, 99] []) =
    some (.memoryFault, some 0, some 1, 1, some (-1)) := by decide

/-! ## The scheduler (V32 to V34, the trace of P6) -/

/-- Slot 1 of V32: SEED goes to P[0], which takes its phase first. -/
theorem test_slot_injects_the_seed : (after (ring2 Config.hardware 0 (proc [3, 0, 3, 0, 99] [1]) (proc [3, 0, 3, 0, 99] [2])
    (Ring.fresh Config.hardware))).map (fun p => (Memory.read p.mem 0, p.inQ)) = some (1, [0]) := by decide

/-- Slot 8 of P6's trace: the carried 1 unblocks P[1], whose IN takes it in the same slot. -/
theorem test_slot_unblocks : (after (ring2 Config.hardware 1 (proc [99] []) { proc [3, 19] [] with status := .blocked }
    { idleRing with carry := ⟨true, 1⟩ })).map (fun p => (Memory.read p.mem 19, p.status, p.inQ)) =
      some (1, .running, []) := by decide

/-- Slot 8 of V32: a pass without progress, one Processor Blocked. -/
theorem test_deadlock_v32 : ∃ s' r', step (ring2 Config.hardware 1 { proc [99] [] with status := .halted }
    { proc [3, 0] [] with status := .blocked } idleRing) = .next s' ∧ s'.ring = some r' ∧ r'.nstatus = .deadlocked ∧
      s'.cursor = 0 := ⟨_, _, rfl, rfl, by decide, rfl⟩

/-- The end of V33: all halted, P[1] never output. -/
theorem test_no_output_v33 : ∃ s' r', step (ring2 Config.hardware 1 { proc [99] [] with status := .halted } (proc [99] [])
    idleRing) = .next s' ∧ s'.ring = some r' ∧ r'.nstatus = .faulted ∧
      r'.nfault = some (1, ⟨.noOutput, none, none, 0, some 1⟩) := ⟨_, _, rfl, rfl, by decide, by decide⟩

/-- All halted, with an output of P[1] (R179, R182). -/
theorem test_done : ∃ s' r', step (ring2 Config.hardware 1 { proc [99] [] with status := .halted }
    { proc [99] [] with lastOutput := some 3 } idleRing) = .next s' ∧ s'.ring = some r' ∧ r'.nstatus = .done ∧
      r'.result = some 3 := ⟨_, _, rfl, rfl, by decide, by decide⟩

/-- Slot 1 of V34. -/
theorem test_member_fault_v34 : ∃ s' r', step (ring2 Config.hardware 0 (proc [0] [1]) (proc [0] [2])
    (Ring.fresh Config.hardware)) = .next s' ∧ s'.ring = some r' ∧ r'.nstatus = .faulted ∧
      r'.nfault = some (0, ⟨.invalidOpcode, some 0, some 0, 0, none⟩) := ⟨_, _, rfl, rfl, by decide, by decide⟩

/-! ## Construction, text forms, host ports (R55, R90, R54, V11, V23f) -/

theorem test_parse_image : parseImage Config.hardware " 1, -2,+30\t\r\n".toList = some [1, (-2), 30] := by decide
theorem test_parse_empty_token : parseImage Config.hardware "1,,2".toList = none := by decide
theorem test_parse_too_big : parseImage Config.hardware "9223372036854775808".toList = none := by decide
theorem test_parse_not_a_number : parseImage Config.hardware "1,2x".toList = none := by decide
theorem test_image_too_long_v23f : State.new (cap 2) [1, 2, 3] [] = .error .imageError := by decide
theorem test_image_value_of_8_bits :
    State.new narrow [127, -128] [] = .ok (alone narrow (proc [127, -128] [])) ∧
      State.new narrow [128] [] = .error .imageError ∧ parseImage narrow "-129".toList = none := by decide
theorem test_input_of_8_bits : State.new narrow [] [128] = .error .notACell ∧
    (alone narrow (proc [] [])).injectInput 128 = .error .notACell ∧
    State.newNetwork { narrow with ringSize := 1 } [] #v[128] = .error .notACell := by decide
theorem test_no_processors : State.newNetwork { narrow with ringSize := 0 } [] #v[] = .error .noProcessors := by decide
theorem test_boot_failure : State.boot Config.hardware "a".toList [] = .error .imageError := by decide
theorem test_assemble_loop : assemble Config.hardware "l: JF [rb-1], #l ; comment\n  .word 7, l".toList =
    some [1206, (-1), 0, 7, 0] := by decide
theorem test_assemble_p1 : assemble Config.hardware " IN [9]\n EQ [9], #8, [10]\n OUT [10]\n HLT\nx: .word 0\nr: .word 0".toList =
    some [3, 9, 1008, 9, 8, 10, 4, 10, 99, 0, 0] := by decide
theorem test_assemble_immediate_target : assemble Config.hardware "ADD #1, #2, #3".toList = none := by decide
theorem test_peek_beyond : (alone (cap 4) (proc [7] [])).peek 4 = .error (.memoryFault 4) := by decide
theorem test_peek : (alone (cap 4) (proc [7] [])).peek 0 = .ok 7 := by decide
theorem test_status_encoding : [Status.running, .blocked, .halted, .faulted].map Status.encoding = [0#2, 1#2, 2#2, 3#2] := by
  decide

/-! ## The host's table words -/

theorem test_table_word : decodeTableWord 16 203 = some (.inp (rel 0)) := by decide
theorem test_table_word_parameters : decodeTableWord 128 (203 + 7 * 2 ^ 64) = some (.inp (rel 7)) := by decide
theorem test_table_word_refused : decodeTableWord 8 98 = none := by decide
theorem test_fetch_word_runs : (after (State.reset.withFetchWord 128 (104 + 42 * 2 ^ 64))).map Processor.lastOutput =
    some (some 42) := by decide

/-! ## Witnesses: for every statement with hypotheses, what meets them, each clause at an edge of its range -/

theorem witness_DecodeOfEncodeIsTheInstruction :
    (Instr.add (rel small) (imm big) (pos small)).WellFormed ∧ (Instr.inp (rel big)).WellFormed ∧ Instr.hlt.WellFormed := by
  decide

theorem witness_DecodedInstructionsAreWellFormed :
    decode [21101, 5, 6, 7, 8] = .ok (.add (imm 5) (imm 6) (rel 7), [8]) := by decide

theorem witness_DigitsBeyondTheArityAreIgnored : ∃ w w' : Cell, w ≠ w' ∧ 0 ≤ w ∧ 0 ≤ w' ∧
    Opcode.ofNumber? (opcodeField w) = some .out ∧ w % 10 ^ (Opcode.out.arity + 2) = w' % 10 ^ (Opcode.out.arity + 2) :=
  ⟨4, 100004, by decide⟩

theorem witness_NegativeWordsAndZeroAreInvalid : ∃ u v w : Cell, u < 0 ∧ v ≤ 0 ∧ w ≤ 0 ∧ u = -1 ∧ v = 0 ∧ w = small :=
  ⟨-1, 0, small, by decide⟩

/-- Word 31101 at parameter 3: digits 1 and 1 are legal before it. -/
theorem witness_FirstIllegalModeDigitIsReported : ∃ w : Cell,
    Opcode.ofNumber? (w.tmod 100) = some .add ∧ 3 ≤ Opcode.add.arity ∧
      (∀ j, 1 ≤ j → j < 3 → (w.tdiv (10 ^ (j + 1))).tmod 10 ∈ ([0, 1, 2] : List Int)) ∧
      (w.tdiv (10 ^ 4)).tmod 10 ∉ ([0, 1, 2] : List Int) := by
  refine ⟨31101, by decide, by decide, fun j h1 h2 => ?_, by decide⟩
  have : j = 1 ∨ j = 2 := by omega
  rcases this with rfl | rfl <;> decide

theorem witness_ImmediateWriteTargetIsRejected : ∃ w : Cell,
    Opcode.ofNumber? (w.tmod 100) = some .inp ∧ Opcode.inp.wparam ≠ 0 ∧
      (∀ j, 1 ≤ j → j ≤ Opcode.inp.arity → (w.tdiv (10 ^ (j + 1))).tmod 10 ∈ ([0, 1, 2] : List Int)) ∧
      (w.tdiv (10 ^ (Opcode.inp.wparam + 1))).tmod 10 = 1 := by
  refine ⟨103, by decide, by decide, fun j h1 h2 => ?_, by decide⟩
  have : j = 1 := by simp only [Opcode.arity] at h2; omega
  subst this
  decide

/-- An image as long as the memory and with the greatest cell, the empty image, one cell too many, and a value too
great. -/
theorem witness_ConstructionGivesTheResetValues :
    (∀ v ∈ [big, small], fitsW (cap 2) v) ∧ [big, 2].length ≤ (cap 2).memCapacity ∧ (∀ v ∈ [big, 2], fitsW (cap 2) v) ∧
      ([] : List Cell).length ≤ (cap 1).memCapacity ∧ 1 ≤ (cap 1).memCapacity ∧
      (cap 2).memCapacity < ([1, 2, 3] : List Cell).length ∧ ∃ v ∈ [1, big + 1], ¬ fitsW (cap 2) v := by decide

/-- A ring of two and of one, with an image as long as the memory, one cell too many and a value too great, and N = 0. -/
theorem witness_NetworkConstructionGivesTheResetValues :
    (∀ v ∈ (#v[big, small] : Vector Cell 2).toList, fitsW (cap 2) v) ∧ ([1, 2] : List Cell).length ≤ (cap 2).memCapacity ∧
      (∀ v ∈ ([1, 2] : List Cell), fitsW (cap 2) v) ∧ 1 ≤ ({ cap 2 with ringSize := 1 } : Config).ringSize ∧
      (cap 2).memCapacity < ([1, 2, 3] : List Cell).length ∧ (∃ v ∈ [1, big + 1], ¬ fitsW (cap 2) v) ∧
      ({ cap 2 with ringSize := 0 } : Config).ringSize = 0 := by decide

theorem witness_MemoryReadsBackTheLastWrite :
    ∃ m m' : Memory, Memory.wf m ∧ Memory.wf m' ∧ m ≠ [] ∧ ∀ k, Memory.read m k = Memory.read m' k :=
  ⟨[(0, 5), (3, 7)], [(0, 5), (3, 7)], by decide, by decide, by decide, fun _ => rfl⟩

/-- First and last legal address, and the two next to them, for Position (rb is 0) and for Relative (rb is 1). -/
theorem witness_ReadOperandFollowsItsMode :
    legalAddr (cap 4) 0 ∧ legalAddr (cap 4) 3 ∧ ¬ legalAddr (cap 4) 4 ∧ ¬ legalAddr (cap 4) (-1) ∧
      legalAddr (cap 4) (1 + -1) ∧ ¬ legalAddr (cap 4) (1 + 3) ∧ ¬ legalAddr (cap 4) (big + 1) := by decide

/-- The same addresses as for reading; a sum past the greatest cell does not wrap to a legal one. -/
theorem witness_WriteAddressFollowsItsMode :
    (proc [] []).writeAddr (cap 4) 3 (pos 0) = .ok 0 ∧ (proc [] []).writeAddr (cap 4) 3 (rel 3) = .ok 3 ∧
      (proc [] []).writeAddr (cap 4) 3 (pos 4) = .error ⟨.memoryFault, 3, some 4⟩ ∧
      ({ proc [] [] with rb := big }).writeAddr (cap 4) 3 (rel big) =
        .error ⟨.memoryFault, 3, some (big + big)⟩ := by decide

/-- The greatest sum that fits and the least that does not, under both policies. -/
theorem witness_AddStoresTheSum : ∃ (s : State) (p : Processor),
    s.current = some p ∧ p.readOperand s.cfg 1 (imm big) = .ok (big) ∧
    p.readOperand s.cfg 2 (imm 0) = .ok 0 ∧ p.readOperand s.cfg 2 (imm 1) = .ok 1 ∧
    p.writeAddr s.cfg 3 (pos 999999) = .ok 999999 ∧ fitsW s.cfg (big + 0) ∧ 1 ≤ s.cfg.cellW ∧
    ¬ fitsW s.cfg (big + 1) ∧ s.cfg.overflowPolicy = .fault ∧
    (alone wrapping p).cfg.overflowPolicy = .wrap :=
  ⟨single [] [], proc [] [], by decide⟩

theorem witness_MulStoresTheProduct : ∃ (s : State) (p : Processor), s.current = some p ∧
    p.readOperand s.cfg 1 (imm small) = .ok (small) ∧ p.readOperand s.cfg 2 (imm 1) = .ok 1 ∧
    p.readOperand s.cfg 2 (imm (-1)) = .ok ((-1)) ∧ p.writeAddr s.cfg 3 (rel 0) = .ok 0 ∧
    1 ≤ s.cfg.cellW ∧ fitsW s.cfg (small * 1) ∧ ¬ fitsW s.cfg (small * (-1)) ∧ s.cfg.overflowPolicy = .fault ∧
    (alone wrapping p).cfg.overflowPolicy = .wrap :=
  ⟨single [] [], proc [] [], by decide⟩

theorem witness_LessThanStoresOneOrZero : ∃ (s : State) (p : Processor), s.current = some p ∧
    p.readOperand s.cfg 1 (imm small) = .ok (small) ∧ p.readOperand s.cfg 2 (pos 0) = .ok 7 ∧
    p.writeAddr s.cfg 3 (pos 0) = .ok 0 := ⟨single [7] [], proc [7] [], by decide⟩

theorem witness_EqualsStoresOneOrZero : ∃ (s : State) (p : Processor),
    s.current = some p ∧ p.readOperand s.cfg 1 (rel 0) = .ok 7 ∧
    p.readOperand s.cfg 2 (pos 0) = .ok 7 ∧ p.writeAddr s.cfg 3 (rel 0) = .ok 0 :=
  ⟨single [7] [], proc [7] [], by decide⟩

/-- A value waiting, an empty queue, and a bad destination. -/
theorem witness_InputStoresTheHeadOfTheQueue : ∃ (s : State) (p : Processor),
    s.current = some p ∧ p.writeAddr s.cfg 1 (pos 0) = .ok 0 ∧
    p.inQ = [7] ∧ (proc [] []).inQ = [] ∧ p.writeAddr s.cfg 1 (pos (-1)) = .error ⟨.memoryFault, 1, some (-1)⟩ :=
  ⟨single [] [7], proc [] [7], by decide⟩

/-- An unbounded queue, a queue with room for one, and that queue full. -/
theorem witness_OutputPushesTheOperand : ∃ (s : State) (p : Processor),
    s.current = some p ∧ p.readOperand s.cfg 1 (imm 5) = .ok 5 ∧
    (∀ d, s.cfg.queueDepth = some d → p.outQ.length < d) ∧ (∀ d, Config.hardware.queueDepth = some d → p.outQ.length < d) ∧
    depth1.queueDepth = some 1 ∧ 1 ≤ ({ p with outQ := [5] } : Processor).outQ.length :=
  ⟨alone depth1 (proc [] []), proc [] [], rfl, rfl, fun d h => by cases h; decide, fun d h => (by cases h), rfl, by decide⟩

/-- Condition 0, condition not 0 with targets 0 and -1, and an unreadable target. -/
theorem witness_JumpIfTrueTakesANonzeroCondition : ∃ (s : State) (p : Processor),
    s.current = some p ∧ p.readOperand s.cfg 1 (imm 0) = .ok 0 ∧
    p.readOperand s.cfg 1 (imm (-3)) = .ok ((-3)) ∧ (-3) ≠ 0 ∧
    p.readOperand s.cfg 2 (imm 0) = .ok 0 ∧ 0 ≤ 0 ∧
    p.readOperand s.cfg 2 (imm (-1)) = .ok ((-1)) ∧ (-1) < 0 ∧
    p.readOperand s.cfg 2 (pos (-1)) = .error ⟨.memoryFault, 2, some (-1)⟩ := ⟨single [] [], proc [] [], by decide⟩

theorem witness_JumpIfFalseTakesAZeroCondition : ∃ (s : State) (p : Processor),
    s.current = some p ∧ p.readOperand s.cfg 1 (pos 5) = .ok 0 ∧
    p.readOperand s.cfg 1 (imm 1) = .ok 1 ∧ (1 : Cell) ≠ 0 ∧ p.readOperand s.cfg 2 (imm 0) = .ok 0 ∧
    0 ≤ 0 ∧ p.readOperand s.cfg 2 (imm (-1)) = .ok ((-1)) ∧
    (-1) < 0 ∧ p.readOperand s.cfg 2 (pos 1000000) = .error ⟨.memoryFault, 2, some 1000000⟩ :=
  ⟨single [] [], proc [] [], by decide⟩

theorem witness_HaltStopsTheProcessor : (single [99] []).current = some (proc [99] []) := by decide

/-- The greatest rb that fits and the least that does not, under both policies. -/
theorem witness_AdjustRelativeBaseAddsTheOperand : ∃ (s : State) (p : Processor), s.current = some p ∧
    1 ≤ s.cfg.cellW ∧ p.readOperand s.cfg 1 (imm big) = .ok big ∧ fitsW s.cfg (0 + big) ∧ ¬ fitsW s.cfg (1 + big) ∧
    p.rb = 0 ∧ ({ p with rb := 1 }).readOperand s.cfg 1 (imm big) = .ok big ∧
    s.cfg.overflowPolicy = .fault ∧ (alone wrapping p).cfg.overflowPolicy = .wrap :=
  ⟨single [] [], proc [] [], by decide⟩

theorem witness_OperandFaultsAreReportedInOrder : ∃ (s : State) (p : Processor),
    s.current = some p ∧ (pos (-1)).isTarget ∧
    p.readOperand s.cfg 1 (pos (-1)) = .error ⟨.memoryFault, 1, some (-1)⟩ ∧ p.readOperand s.cfg 1 (imm 0) = .ok 0 ∧
    p.readOperand s.cfg 2 (pos 1000000) = .error ⟨.memoryFault, 2, some 1000000⟩ ∧
    p.readOperand s.cfg 2 (imm 0) = .ok 0 ∧ p.writeAddr s.cfg 3 (pos (-1)) = .error ⟨.memoryFault, 3, some (-1)⟩ :=
  ⟨single [] [], proc [] [], by decide⟩

theorem witness_IllFormedInstructionsTakeInvalidWriteTarget : (single [] []).current = some (proc [] []) ∧
    (Instr.add (pos (-1)) (pos 0) (imm 0)).writeParam = some (3, imm 0) ∧ (Instr.inp (imm 0)).writeParam = some (1, imm 0) ∧
    (imm 0).mode = .immediate := by decide

/-- A store to the last cell, and a form that stores nothing because its target has no address. -/
theorem witness_BinaryInstructionFrame : ∃ (s : State) (p : Processor), s.current = some p ∧
    (∃ s' : State, exec (.add (imm 1) (imm 2) (pos 999999)) s = .next s') ∧ p.targetAddr (pos 999999) = some 999999 ∧
    (∃ s' : State, exec (.eq (imm 1) (imm 2) (imm 0)) s = .next s') ∧ p.targetAddr (imm 0) = none :=
  ⟨single [] [], proc [] [], by decide, ⟨_, rfl⟩, by decide, ⟨_, rfl⟩, by decide⟩

theorem witness_InputFrame : ∃ (s : State) (p : Processor), s.current = some p ∧ p.targetAddr (rel 0) = some 0 ∧
    (∃ s' : State, exec (.inp (rel 0)) s = .next s' ∧ s'.outcome = some (.progress none)) ∧
    ∃ s' : State, exec (.inp (rel 0)) (single [] []) = .next s' ∧ s'.outcome ≠ some (.progress none) :=
  ⟨single [] [7], proc [] [7], by decide, by decide, ⟨_, rfl, rfl⟩, _, rfl, by decide⟩

/-- One that completes and one that faults. -/
theorem witness_OutputFrame : ∃ (s : State) (p : Processor), s.current = some p ∧
    (∃ (s' : State) (q : Processor), exec (.out (imm 1)) s = .next s' ∧ s'.current = some q ∧ q.status ≠ .faulted) ∧
    ∃ (s' : State) (q : Processor), exec (.out (pos (-1))) s = .next s' ∧ s'.current = some q ∧ q.status = .faulted ∧ p.status ≠ .faulted :=
  ⟨single [] [], proc [] [], by decide, ⟨_, _, rfl, rfl, by decide⟩, _, _, rfl, rfl, by decide, by decide⟩

theorem witness_JumpHaltAndRelativeBaseFrame : ∃ (s : State) (p : Processor),
    s.current = some p ∧ (∃ s' : State, exec (.jt (imm 1) (imm 0)) s = .next s') ∧
    (∃ s' : State, exec (.arb (imm 1)) s = .next s') ∧ (Instr.jt (imm 1) (imm 0) ≠ .arb (imm 1)) ∧ ∃ s' : State, exec .hlt s = .next s' :=
  ⟨single [] [], proc [] [], by decide, ⟨_, rfl⟩, ⟨_, rfl⟩, by decide, _, rfl⟩

/-- Each of the four clauses has an instruction that writes. -/
theorem witness_OnlyTheNamedInstructionsWrite : ∃ (s : State) (p : Processor), s.current = some p ∧
    (∃ (s' : State) (q : Processor), exec (.arb (imm 1)) s = .next s' ∧ s'.current = some q ∧ q.rb ≠ p.rb) ∧
    (∃ (s' : State) (q : Processor), exec (.out (imm 1)) s = .next s' ∧ s'.current = some q ∧ q.outQ ≠ p.outQ) ∧
    ∃ (s' : State) (q : Processor), exec (.inp (pos 0)) s = .next s' ∧ s'.current = some q ∧ q.inQ ≠ p.inQ ∧ q.mem ≠ p.mem :=
  ⟨single [] [7], proc [] [7], by decide, ⟨_, _, rfl, rfl, by decide⟩, ⟨_, _, rfl, rfl, by decide⟩, _, _, rfl, rfl,
    by decide, by decide⟩

/-- An instruction that ends with the memory. -/
theorem witness_StepRunsTheDecodedInstruction : ∃ (s : State) (p : Processor),
    s.ring = none ∧ s.current = some p ∧ p.status.Runs ∧
    decode (p.window 4) = .ok (.out (imm 5), [0, 0]) ∧ p.ip + (Instr.out (imm 5)).length = s.cfg.memCapacity :=
  ⟨alone (cap 2) (proc [104, 5] []), proc [104, 5] [], by decide⟩

/-- Without and with a carry. -/
theorem witness_SlotRunsTheDecodedInstruction : ∃ (s t : State) (r u : Ring) (p : Processor), s.ring = some r ∧
    t.ring = some u ∧ r.nstatus = .running ∧ u.nstatus = .running ∧ s.current = some p ∧ t.current = some p ∧ p.status.Runs ∧
    decode (p.window 4) = .ok (.hlt, [0, 0, 0]) ∧ p.ip + Instr.hlt.length ≤ s.cfg.memCapacity ∧
    r.carry.valid = false ∧ u.carry.valid = true ∧ t.CarryFits u :=
  ⟨ring2 Config.hardware 1 (proc [] []) (proc [99] []) idleRing,
    ring2 Config.hardware 1 (proc [] []) (proc [99] []) (Ring.fresh Config.hardware), idleRing, Ring.fresh Config.hardware,
    proc [99] [], rfl, rfl, rfl, rfl, rfl, rfl, by decide, by decide, by decide, rfl, rfl, fun _ _ _ => rfl⟩

/-- A ring of two, halted and blocked, that meets both invariants, with a running and a deadlocked scheduler. -/
def quietRing (n : NStatus) : State :=
  ring2 Config.hardware 0 { proc [99] [] with status := .halted } { proc [3, 0] [] with status := .blocked }
    { idleRing with nstatus := n }

/-- Halted and Faulted, and of Running and Blocked one that fetches an instruction and one whose fetch faults. -/
theorem witness_OnlyRunningAndBlockedGoOnToFetch : ∃ p : Processor, p.status = .running ∧
    (alone Config.hardware p).current = some p ∧ (quietRing .running).current.isSome ∧
    p.fetch Config.hardware = .ok (.inp (pos 0)) ∧
    ({ p with ip := 1000000, status := .blocked }).fetch Config.hardware = .error ⟨.memoryFault, 0, some 1000000⟩ ∧
    ({ p with status := .halted }).status = .halted ∧ ({ p with status := .faulted }).status = .faulted :=
  ⟨proc [3, 0] [], by decide⟩

/-- The last cell of memory, rejected and accepted, and the address after it. -/
theorem witness_FetchReadsTheWordAtIp : ∃ p : Processor, p.status.Runs ∧ (alone (cap 5) p).current = some p ∧
    p.ip + 1 = (cap 5).memCapacity ∧ decodeHeader (Memory.read p.mem p.ip) = .error .invalidOpcode ∧
    ({ p with mem := [(4, 99)] }).fetch (cap 5) = .ok .hlt ∧ (alone (cap 4) p).current = some p ∧
    (cap 4).memCapacity ≤ p.ip := ⟨{ proc [] [] with ip := 4 }, by decide⟩

/-- The first and the last parameter cell. -/
theorem witness_ParameterBeyondTheCapacityFaults : ∃ p : Processor, p.status.Runs ∧
    (alone (cap 1) p).current = some p ∧ (alone (cap 3) p).current = some p ∧
    decodeHeader (Memory.read p.mem p.ip) = .ok ⟨.add, [.immediate, .immediate, .position]⟩ ∧
    p.ip + 1 = (cap 1).memCapacity ∧ p.ip + 3 = (cap 3).memCapacity ∧ 3 ≤ Opcode.add.arity :=
  ⟨proc [1101] [], by decide⟩

/-- One word for each kind of rejection. -/
theorem witness_RejectedWordTakesItsFault : ∃ p q u : Processor, p.status.Runs ∧ q.status.Runs ∧ u.status.Runs ∧
    p.ip < (cap 1).memCapacity ∧ q.ip < (cap 1).memCapacity ∧ u.ip < (cap 1).memCapacity ∧
    decodeHeader (Memory.read p.mem p.ip) = .error .invalidOpcode ∧
    decodeHeader (Memory.read q.mem q.ip) = .error (.invalidParameterMode 3 9) ∧
    decodeHeader (Memory.read u.mem u.ip) = .error (.invalidWriteTarget 3) :=
  ⟨proc [0] [], proc [91101] [], proc [10007] [], by decide⟩

theorem witness_FaultEntryIsPrecise : ∃ (s s' : State) (f : FaultRecord),
    s.stepCurrent = .next s' ∧ s'.outcome = some (.fault f) ∧
    f.word = some 0 ∧ ∃ (t t' : State) (g : FaultRecord), t.stepCurrent = .next t' ∧ t'.outcome = some (.fault g) ∧
      g.word = none :=
  ⟨single [0] [], _, _, rfl, rfl, rfl, alone (cap 4) { proc [] [] with ip := 4 }, _, _, rfl, rfl, rfl⟩

/-- A step that writes a cell and pops a value, and a write that stores over its own parameter. -/
theorem witness_StepWritesAtMostOneOfEach : ∃ (s s' : State) (p p' : Processor), s.stepCurrent = .next s' ∧
    s.current = some p ∧ s'.current = some p' ∧ Memory.read p'.mem 1 ≠ Memory.read p.mem 1 ∧ p'.inQ ≠ p.inQ :=
  ⟨single [3, 1] [7], _, _, _, rfl, rfl, rfl, by decide, by decide⟩

/-- A memory of small cells, and no queues, hold values of cells. -/
theorem cells_fit {cfg : Config} {p : Processor} (h : fitsW cfg p.rb ∧ (∀ c ∈ p.mem, fitsW cfg c.2) ∧
    (∀ v ∈ p.inQ, fitsW cfg v) ∧ (∀ v ∈ p.outQ, fitsW cfg v) ∧ ∀ v ∈ p.lastOutput, fitsW cfg v) : p.CellsFit cfg :=
  ⟨h.1, h.2.1, h.2.2.1, h.2.2.2.1, h.2.2.2.2⟩

/-- A Processor at the end of its run is well-formed. -/
theorem halted_wf : (alone Config.hardware { proc [99] [] with status := .halted }).WF := by
  refine ⟨by decide, by decide, rfl, fun p hp => ?_, fun r hr => (by cases hr), fun r v hr => (by cases hr)⟩
  obtain rfl : p = { proc [99] [] with status := .halted } := by simpa [alone] using hp
  exact ⟨cells_fit (by decide), by decide, by decide, by decide, by simp, by simp, by decide, by simp [alone, Config.hardware]⟩

/-- A Processor waiting at an IN is well-formed. -/
theorem blocked_wf : (alone Config.hardware { proc [3, 0] [] with status := .blocked }).WF := by
  refine ⟨by decide, by decide, rfl, fun p hp => ?_, fun r hr => (by cases hr), fun r v hr => (by cases hr)⟩
  obtain rfl : p = { proc [3, 0] [] with status := .blocked } := by simpa [alone] using hp
  exact ⟨cells_fit (by decide), by decide, by decide, by decide, fun _ => rfl, fun _ => ⟨pos 0, 0, by decide, by decide⟩, by decide,
    by simp [alone, Config.hardware]⟩

/-- A Processor right after construction is well-formed. -/
theorem fresh_wf : (single [99] []).WF ∧ (single [] []).WF := by
  constructor
  all_goals
    refine ⟨by decide, by decide, rfl, fun p hp => ?_, fun r hr => (by cases hr), fun r v hr => (by cases hr)⟩
    simp only [single, alone, List.mem_singleton] at hp
    subst hp
    exact ⟨cells_fit (by decide), by decide, by decide, by decide, by simp [proc, Processor.fresh], by simp [proc, Processor.fresh], by decide,
      by simp [single, alone, Config.hardware]⟩

/-- One start for each outcome: Idle, Starved, Progress by HLT, Fault. -/
theorem witness_OutcomeTellsTheStatus :
    (∃ (s s' : State) (p : Processor), s.WF ∧ s.current = some p ∧ s.stepCurrent = .next s' ∧ s'.outcome = some .idle) ∧
      (∃ (s s' : State) (p : Processor), s.WF ∧ s.current = some p ∧ s.stepCurrent = .next s' ∧
        s'.outcome = some .starved) ∧
      (∃ (s s' : State) (p : Processor), s.WF ∧ s.current = some p ∧ s.stepCurrent = .next s' ∧
        s'.outcome = some (.progress none) ∧ p.fetch s.cfg = .ok .hlt) ∧
      ∃ (s s' : State) (p : Processor) (f : FaultRecord), s.WF ∧ s.current = some p ∧ s.stepCurrent = .next s' ∧
        s'.outcome = some (.fault f) :=
  ⟨⟨_, _, _, halted_wf, rfl, rfl, rfl⟩, ⟨_, _, _, blocked_wf, rfl, rfl, rfl⟩, ⟨_, _, _, fresh_wf.1, rfl, rfl, rfl, rfl⟩,
    _, _, _, _, fresh_wf.2, rfl, rfl, rfl⟩

theorem witness_BlockedInputRunsAgain : ∃ (s : State) (p : Processor),
    s.WF ∧ s.ring = none ∧ s.current = some p ∧ p.status = .blocked ∧ fitsW s.cfg big ∧
    s.cfg.queueDepth ≠ some 0 := ⟨_, _, blocked_wf, rfl, rfl, rfl, by decide, by decide⟩

/-- An ADD and an IN that store over the next word, with a word that decodes and one that is rejected, a store over the
next instruction's last cell, and a store to the last cell of memory. -/
theorem witness_NextFetchSeesTheWrite :
    (∃ (s : State) (p : Processor), s.current = some p ∧ Memory.wf p.mem ∧
      (Instr.add (imm 1) (imm 98) (pos 4)).writeParam = some (3, pos 4) ∧ p.writeAddr s.cfg 3 (pos 4) = .ok 4 ∧
      p.storedValue s.cfg (.add (imm 1) (imm 98) (pos 4)) = some 99 ∧ decode [99, 0, 0, 0] = .ok (.hlt, [0, 0, 0]) ∧
      4 + Instr.hlt.length ≤ s.cfg.memCapacity ∧
      p.storedValue s.cfg (.lt (imm 1) (imm 98) (pos 999999)) = some 1 ∧
      p.writeAddr s.cfg 3 (pos 999999) = .ok 999999) ∧
    ∃ (s : State) (p : Processor), s.current = some p ∧ Memory.wf p.mem ∧ (Instr.inp (pos 2)).writeParam = some (1, pos 2) ∧
      p.writeAddr s.cfg 1 (pos 2) = .ok 2 ∧ p.storedValue s.cfg (.inp (pos 2)) = some 7 ∧
      decodeHeader 0 = .error .invalidOpcode ∧ decode [104, 7, 0, 0] = .ok (.out (imm 7), [0, 0]) ∧
      p.writeAddr s.cfg 1 (pos 3) = .ok 3 :=
  ⟨⟨single [1101, 1, 98, 4, 0] [], proc [1101, 1, 98, 4, 0] [], by decide⟩, single [3, 2, 104] [7], proc [3, 2, 104] [7],
    by decide⟩

/-- Two Processors that differ in OutQ and last_output. -/
theorem witness_StepDependsOnlyOnTheNamedState : ∃ (s t s' t' : State) (p q : Processor), s.cfg = t.cfg ∧
    queueFull s.cfg p.outQ = queueFull s.cfg q.outQ ∧ s.current = some p ∧ t.current = some q ∧ p.mem = q.mem ∧ p.ip = q.ip ∧ p.rb = q.rb ∧
    p.status = q.status ∧ p.inQ = q.inQ ∧ p ≠ q ∧ s.stepCurrent = .next s' ∧ t.stepCurrent = .next t' :=
  ⟨single [104, 5] [], alone Config.hardware { proc [104, 5] [] with outQ := [1], lastOutput := some 1 }, _, _,
    proc [104, 5] [], { proc [104, 5] [] with outQ := [1], lastOutput := some 1 },
    rfl, rfl, rfl, rfl, rfl, rfl, rfl, rfl, rfl, by decide, rfl, rfl⟩

/-- Both modes, an image as long as the memory, a ring of one. -/
theorem witness_ConstructionGivesWellFormedMachines : ({ cap 1 with ringSize := 1 }).Valid ∧
    (∃ s : State, State.new { cap 1 with ringSize := 1 } [99] [] = .ok s) ∧
    (∃ s : State, State.newNetwork { cap 1 with ringSize := 1 } [99] #v[3] = .ok s) ∧ narrow.Valid ∧
    ∃ s : State, State.new narrow [99] [127] = .ok s :=
  ⟨by decide, ⟨_, rfl⟩, ⟨_, rfl⟩, by decide, _, rfl⟩

theorem witness_EveryStepKeepsTheMachineWellFormed : ∃ s s' : State, s.WF ∧ step s = .next s' := ⟨_, _, blocked_wf, rfl⟩

theorem quietRing_wf (n : NStatus) : (quietRing n).WF := by
  refine ⟨by show Config.Valid { Config.hardware with ringSize := 2 }; decide, by simp [quietRing, ring2], rfl, fun p hp => ?_,
    by rintro r ⟨⟩; exact (by decide : fitsW Config.hardware 0), by rintro r v ⟨⟩ ⟨⟩⟩
  show p.WF { Config.hardware with ringSize := 2 }
  have h : p = { proc [99] [] with status := .halted } ∨ p = { proc [3, 0] [] with status := .blocked } := by
    simpa [quietRing, ring2] using hp
  rcases h with rfl | rfl
  · exact ⟨cells_fit (by decide), by decide, by decide, by decide, by simp, by simp, by decide, by simp [Config.hardware]⟩
  · exact ⟨cells_fit (by decide), by decide, by decide, by decide, fun _ => rfl, fun _ => ⟨pos 0, 0, by decide, by decide⟩, by decide,
      by simp [Config.hardware]⟩

theorem quietRing_consistent : (quietRing .running).RingConsistent ∧ (quietRing .deadlocked).RingConsistent := by
  constructor <;> rintro r ⟨⟩
  · refine ⟨by simp [quietRing, ring2], rfl, rfl, fun _ => ⟨by simp [quietRing, ring2], by simp [quietRing, ring2]⟩⟩
  · refine ⟨?_, ⟨{ proc [3, 0] [] with status := .blocked }, by simp [quietRing, ring2]⟩, rfl, rfl, rfl⟩
    simp [quietRing, ring2, Processor.Quiet, proc, Processor.fresh]

theorem witness_EverySlotKeepsTheRingConsistent : ∃ s s' : State, s.WF ∧ s.RingConsistent ∧ step s = .next s' :=
  ⟨_, _, quietRing_wf .running, quietRing_consistent.1, rfl⟩

theorem witness_HostActionsKeepTheMachineWellFormed : ∃ (s s' t' : State) (v : Cell) (out : List Cell),
    s.WF ∧ s.injectInput v = .ok s' ∧
    s.drainOutput = .ok (out, t') := ⟨_, _, _, 7, _, blocked_wf, rfl, rfl⟩

/-- A halted Processor under a step, an injection and a draining. -/
theorem witness_StoppedProcessorsStayStopped : ∃ (s s₁ s₂ s₃ : State) (p : Processor), s.after .step = some s₁ ∧
    s.after (.inject 7) = some s₂ ∧ s.after .drain = some s₃ ∧ s.procs[0]? = some p ∧ p.status = .halted :=
  ⟨alone Config.hardware { proc [99] [] with status := .halted, outQ := [1] }, _, _, _, _, rfl, rfl, rfl, rfl, rfl⟩

theorem witness_OtherProcessorsKeepTheirState : ∃ s s' : State, step s = .next s' ∧ 1 ≠ s.cursor ∧ s.procs[1]?.isSome :=
  ⟨quietRing .running, _, rfl, by decide, by decide⟩

/-- From the last Processor back to the first, with the ring then running, deadlocked, done and without output, and single
mode. -/
theorem witness_CursorGoesRoundTheRing : (∀ n : NStatus, ∃ (s s' : State) (r r' : Ring), step s = .next s' ∧
      s.ring = some r ∧ s.CarryFits r ∧ (∀ f, s'.outcome ≠ some (.fault f)) ∧ s'.ring = some r' ∧ r'.nstatus = n ∧
      s.cursor + 1 = s.procs.length) ∧ ∃ s s' : State, step s = .next s' ∧ s.ring = none := by
  refine ⟨fun n => ?_, single [99] [], _, rfl, rfl⟩
  cases n
  · exact ⟨ring2 Config.hardware 1 (proc [] []) (proc [99] []) idleRing, _, _, _, rfl, rfl, fun h => (by cases h),
      fun f h => (by cases h), rfl, by decide, rfl⟩
  · exact ⟨ring2 Config.hardware 1 { proc [99] [] with status := .halted } { proc [99] [] with lastOutput := some 3 } idleRing,
      _, _, _, rfl, rfl, fun h => (by cases h), fun f h => (by cases h), rfl, by decide, rfl⟩
  · exact ⟨ring2 Config.hardware 1 { proc [99] [] with status := .halted } { proc [3, 0] [] with status := .blocked } idleRing,
      _, _, _, rfl, rfl, fun h => (by cases h), fun f h => (by cases h), rfl, by decide, rfl⟩
  · exact ⟨ring2 Config.hardware 1 { proc [99] [] with status := .halted } (proc [99] []) idleRing,
      _, _, _, rfl, rfl, fun h => (by cases h), fun f h => (by cases h), rfl, by decide, rfl⟩

/-- A slot that pushes, and one that pushes nothing. -/
theorem witness_CarryGoesToTheNextSlot :
    (∃ (s s' : State) (r' : Ring) (p : Processor), s.ring.isSome ∧ step s = .next s' ∧ s'.ring = some r' ∧ r'.nstatus ≠ .faulted ∧
      s'.outcome = some (.progress (some 5)) ∧ r'.carry.valid = true ∧ r'.nstatus = .running ∧ s'.current = some p ∧
      s'.CarryFits r') ∧
    ∃ (s s' : State) (r' : Ring), s.ring.isSome ∧ step s = .next s' ∧ s'.ring = some r' ∧ r'.nstatus ≠ .faulted ∧ s'.outcome = some .idle :=
  ⟨⟨ring2 Config.hardware 1 (proc [] []) (proc [104, 5] []) idleRing, _, _, _, rfl, rfl, rfl, by decide, rfl, rfl, by decide,
    rfl, fun _ _ _ => rfl⟩, quietRing .running, _, _, rfl, rfl, rfl, by decide, rfl⟩

/-- The last slot of a pass: all halted with and without an output, progress, and no progress. -/
theorem witness_EndOfPassDecides : ∀ p₀ p₁ : Processor,
    (p₀, p₁) ∈ [({ proc [99] [] with status := .halted }, { proc [99] [] with lastOutput := some 3 }),
      ({ proc [99] [] with status := .halted }, proc [99] []), (proc [] [], proc [104, 5] []),
      ({ proc [99] [] with status := .halted }, { proc [3, 0] [] with status := .blocked })] →
    ∃ (s s' : State) (r r' : Ring) (p : Processor), s.ring = some r ∧ s.cursor + 1 = s.procs.length ∧ s.CarryFits r ∧
      step s = .next s' ∧ (∀ f, s'.outcome ≠ some (.fault f)) ∧ s'.ring = some r' ∧
      s'.procs[s'.procs.length - 1]? = some p := by
  intro p₀ p₁ h
  refine ⟨ring2 Config.hardware 1 p₀ p₁ idleRing, ?_⟩
  simp only [List.mem_cons, Prod.mk.injEq, List.not_mem_nil, or_false] at h
  rcases h with ⟨rfl, rfl⟩ | ⟨rfl, rfl⟩ | ⟨rfl, rfl⟩ | ⟨rfl, rfl⟩
  all_goals exact ⟨_, _, _, _, rfl, rfl, fun h => (by cases h), rfl, fun f h => (by cases h), rfl, rfl⟩

/-- A member's fault with its carry injected, and a carry that does not fit. -/
theorem witness_FaultsStopTheNetwork :
    (∃ (s s' : State) (r : Ring) (f : FaultRecord), s.ring = some r ∧ step s = .next s' ∧ s.CarryFits r ∧
      s'.outcome = some (.fault f)) ∧
    ∃ (s s' : State) (r : Ring), s.ring = some r ∧ step s = .next s' ∧ ¬ s.CarryFits r := by
  refine ⟨⟨ring2 Config.hardware 0 (proc [0] []) (proc [99] []) (Ring.fresh Config.hardware), _, _, _, rfl, rfl,
    fun _ _ _ => rfl, rfl⟩, ring2 depth1 0 (proc [99] [7]) (proc [99] []) (Ring.fresh depth1), _, _, rfl, rfl, fun h => ?_⟩
  exact absurd (h rfl (proc [99] [7]) rfl) (by decide)

theorem witness_DeadlockIsAFixedPoint : ∃ (s : State) (r : Ring),
    s.WF ∧ s.RingConsistent ∧ s.ring = some r ∧ r.nstatus = .deadlocked ∧
    1 < s.procs.length := ⟨_, _, quietRing_wf .deadlocked, quietRing_consistent.2, rfl, rfl, by decide⟩

theorem witness_EndedNetworkTakesNoSlot : ∀ n : NStatus, ∃ (s : State) (r : Ring), s.ring = some r ∧ r.nstatus = n :=
  fun n => ⟨quietRing n, _, rfl, rfl⟩

/-- Room for one more, Blocked and Running, a full queue, and a value too great. -/
theorem witness_InjectPushesAndUnblocks : ∃ (s t u : State) (p q w : Processor), s.ring = none ∧ s.current = some p ∧
    p.status = .blocked ∧ p.inQ.length < 1 ∧ s.cfg.queueDepth = some 1 ∧ t.ring = none ∧ t.current = some q ∧
    q.status ≠ .blocked ∧ q.inQ.length < 1 ∧ u.ring = none ∧ u.current = some w ∧ u.cfg.queueDepth = some 1 ∧
    1 = w.inQ.length ∧ fitsW s.cfg big ∧ ¬ fitsW s.cfg (big + 1) :=
  ⟨alone depth1 { proc [3, 0] [] with status := .blocked }, alone depth1 (proc [99] []), alone depth1 (proc [99] [7]), _, _, _,
    rfl, rfl, rfl, by decide, rfl, rfl, rfl, by decide, by decide, rfl, rfl, rfl, rfl, by decide, by decide⟩

theorem witness_DrainReturnsAndEmptiesOutQ : (single [] []).ring = none ∧ (single [] []).current = some (proc [] []) := by
  decide

/-- A program that halts in its first step, one that faults there, and one that never returns. -/
theorem witness_RunToHaltReturnsOnlyAtTheEnd :
    (∃ s' : State, State.runToHalt 1 (single [99] []) = some (.ok, s') ∧ (single [99] []).WF ∧
      Host.Core.run Sys2Proof.core 1 (single [99] []) = .next s' ∧ s'.Ended) ∧
    (∃ s' : State, State.runToHalt 1 (single [] []) =
      some (.fault ⟨.invalidOpcode, some 0, some 0, 0, none⟩, s')) ∧
    State.runToHalt 3 (single [3, 0] []) = none :=
  ⟨⟨_, rfl, fresh_wf.1, rfl, _, rfl, .inl rfl⟩, ⟨_, rfl⟩, rfl⟩

/-- A ring of one that has ended with the result 3. -/
def doneRing : State where
  cfg := { Config.hardware with ringSize := 1 }
  procs := [{ proc [99] [] with status := .halted, lastOutput := some 3 }]
  cursor := 0
  ring := some { idleRing with nstatus := .done, result := some 3 }
  outcome := none

theorem witness_NetworkRunReturnsTheLastOutput : ∃ (s : State) (v : Cell), s.WF ∧ s.RingConsistent ∧
    State.runNetwork 0 s = some (.result v) := by
  refine ⟨doneRing, 3, ⟨by decide, by decide, rfl, ?_, by rintro r ⟨⟩; decide, by rintro r v ⟨⟩ ⟨⟩; decide⟩, ?_, rfl⟩
  · intro p hp
    obtain rfl : p = { proc [99] [] with status := .halted, lastOutput := some 3 } := by simpa [doneRing] using hp
    exact ⟨cells_fit (by decide), by decide, by decide, by decide, by simp, by simp, by decide, by simp [doneRing, Config.hardware]⟩
  · rintro r ⟨⟩
    exact ⟨by simp [doneRing], rfl, 3, rfl, rfl⟩

end Sys2Proof.Tests
end

namespace Sys2Proof

/-! ## What running an instruction does to the Processor at the cursor -/

theorem Instr.opcode_eq_inp {i : Instr} : i.opcode = .inp ↔ ∃ w, i = .inp w := by
  cases i <;> simp [Instr.opcode]

theorem Instr.opcode_eq_out {i : Instr} : i.opcode = .out ↔ ∃ w, i = .out w := by
  cases i <;> simp [Instr.opcode]

theorem Instr.opcode_of_writeParam {i : Instr} {w : Nat × Operand} (h : i.writeParam = some w) :
    i.opcode ∈ [Opcode.add, .mul, .inp, .lt, .eq] := by
  cases i <;> simp_all [Instr.opcode, Instr.writeParam]

namespace Machine

/-- What an instruction that completes leaves of a Processor, memory and ip apart (R22 to R27, R34). -/
structure Processor.Frame (i : Instr) (p p' : Processor) : Prop where
  rb : i.opcode ≠ .arb → p'.rb = p.rb
  output : i.opcode ≠ .out → p'.lastOutput = p.lastOutput ∧ p'.outQ = p.outQ
  inQ : i.opcode ≠ .inp → p'.inQ = p.inQ
  fault : p'.fault = p.fault
  status : i.opcode ≠ .inp → i.opcode ≠ .hlt → p'.status = p.status
  blocked : p'.status = .blocked → i.opcode = .inp ∨ p.status = .blocked
  not_faulted : p.status.Runs → p'.status ≠ .faulted

/-- One branch for each thing that an instruction can do (`effect_cases`). -/
theorem effect_frame {i : Instr} {cfg : Config} {p p' : Processor} {o : StepOutcome}
    (h : effect i cfg p = .ok (p', o)) : p.Frame i p' := by
  have kept : p.status.Runs → p.status ≠ .faulted := by rintro (h | h) <;> simp [h]
  rcases effect_cases h with ⟨d, v, -, -, -, rfl⟩ | ⟨w, rfl, -, -, rfl⟩ | ⟨w, d, v, q, rfl, -, -, -, rfl⟩ |
    ⟨w, x, rfl, -, -, rfl⟩ | ⟨n, -, -, -, rfl⟩ | ⟨w, r, rfl, -, rfl⟩ | ⟨rfl, -, rfl⟩
  · exact ⟨fun _ => rfl, fun _ => ⟨rfl, rfl⟩, fun _ => rfl, rfl, fun _ _ => rfl, .inr, kept⟩
  · exact ⟨fun _ => rfl, fun _ => ⟨rfl, rfl⟩, fun _ => rfl, rfl, fun h => absurd rfl h, fun _ => .inl rfl,
      by simp⟩
  · exact ⟨fun _ => rfl, fun _ => ⟨rfl, rfl⟩, fun h => absurd rfl h, rfl, fun h => absurd rfl h, by simp,
      by simp⟩
  · exact ⟨fun _ => rfl, fun h => absurd rfl h, fun _ => rfl, rfl, fun _ _ => rfl, .inr, kept⟩
  · exact ⟨fun _ => rfl, fun _ => ⟨rfl, rfl⟩, fun _ => rfl, rfl, fun _ _ => rfl, .inr, kept⟩
  · exact ⟨fun h => absurd rfl h, fun _ => ⟨rfl, rfl⟩, fun _ => rfl, rfl, fun _ _ => rfl, .inr, kept⟩
  · exact ⟨fun _ => rfl, fun _ => ⟨rfl, rfl⟩, fun _ => rfl, rfl, fun _ h => absurd rfl h, by simp, by simp⟩

/-- Memory is left alone, or one cell is stored, at the address the write parameter names (R105, R110). -/
theorem effect_mem {i : Instr} {cfg : Config} {p p' : Processor} {o : StepOutcome}
    (h : effect i cfg p = .ok (p', o)) :
    p'.mem = p.mem ∨ ∃ j w d v, i.writeParam = some (j, w) ∧ p.writeAddr cfg j w = .ok d ∧
      p'.mem = Memory.write p.mem d.toNat v := by
  have binary : ∀ {alu a b dst}, i.writeParam = some (3, dst) → binaryEffect alu a b dst cfg p = .ok (p', o) →
      ∃ j w d v, i.writeParam = some (j, w) ∧ p.writeAddr cfg j w = .ok d ∧
        p'.mem = Memory.write p.mem d.toNat v := by
    intro alu a b dst hi hb
    obtain ⟨-, -, d, r, -, -, hd, -, rfl, -⟩ := binaryEffect_eq_ok hb
    exact ⟨3, dst, d, r, hi, hd, rfl⟩
  cases i with
  | add a b d => exact .inr (binary rfl h)
  | mul a b d => exact .inr (binary rfl h)
  | lt a b d => exact .inr (binary (alu := fun _ x y => .ok (aluLt x y)) rfl h)
  | eq a b d => exact .inr (binary (alu := fun _ x y => .ok (aluEq x y)) rfl h)
  | inp w =>
    obtain ⟨d, hd, ⟨-, rfl, -⟩ | ⟨v, q, -, rfl, -⟩⟩ := inputEffect_eq_ok h
    · exact .inl rfl
    · exact .inr ⟨1, w, d, v, rfl, hd, rfl⟩
  | out w =>
    obtain ⟨x, -, -, rfl, -⟩ := outputEffect_eq_ok h
    exact .inl rfl
  | jt c t | jf c t =>
    obtain ⟨x, -, -, ⟨-, n, -, rfl⟩ | ⟨-, rfl⟩⟩ := jumpEffect_eq_ok h <;> exact .inl rfl
  | arb w =>
    obtain ⟨x, r, -, -, rfl, -⟩ := relativeBaseEffect_eq_ok h
    exact .inl rfl
  | hlt =>
    cases h
    exact .inl rfl

/-- `i` run on the Processor `p` ends with `p'` and the outcome `o`: it completes, or takes its fault (R110, R161). -/
inductive Processor.Exec (cfg : Config) (i : Instr) (p : Processor) : Processor → StepOutcome → Prop where
  | completes {p' : Processor} {o : StepOutcome} (h : effect i cfg p = .ok (p', o)) : Exec cfg i p p' o
  | faults {r : Raise} (h : effect i cfg p = .error r) :
    Exec cfg i p { p with status := .faulted, fault := some (p.faultRecord cfg r) } (.fault (p.faultRecord cfg r))

theorem exec_eq_next {s s' : State} {p : Processor} {i : Instr} (hc : s.current = some p)
    (h : exec i s = .next s') : ∃ p' o, p.Exec s.cfg i p' o ∧ s' = s.commit p' o := by
  rw [exec_of_current hc] at h
  cases h
  cases he : effect i s.cfg p with
  | error r => exact ⟨_, _, .faults he, rfl⟩
  | ok e => exact ⟨_, _, .completes he, rfl⟩

namespace Processor.Exec
variable {cfg : Config} {i : Instr} {p p' : Processor} {o : StepOutcome}

/-- Only ARB writes rb (R22). -/
theorem rb (h : p.Exec cfg i p' o) (hi : i.opcode ≠ .arb) : p'.rb = p.rb := by
  cases h with
  | completes h => exact (effect_frame h).rb hi
  | faults h => rfl

/-- Only OUT writes last_output and OutQ (R26, R27). -/
theorem output (h : p.Exec cfg i p' o) (hi : i.opcode ≠ .out) :
    p'.lastOutput = p.lastOutput ∧ p'.outQ = p.outQ := by
  cases h with
  | completes h => exact (effect_frame h).output hi
  | faults h => exact ⟨rfl, rfl⟩

/-- Only IN pops InQ (R27). -/
theorem inQ (h : p.Exec cfg i p' o) (hi : i.opcode ≠ .inp) : p'.inQ = p.inQ := by
  cases h with
  | completes h => exact (effect_frame h).inQ hi
  | faults h => rfl

/-- The fault record is written only with status Faulted (R25). -/
theorem fault (h : p.Exec cfg i p' o) (hf : p'.status ≠ .faulted) : p'.fault = p.fault := by
  cases h with
  | completes h => exact (effect_frame h).fault
  | faults h => exact absurd rfl hf

/-- Without a fault only IN and HLT write status. -/
theorem status (h : p.Exec cfg i p' o) (hf : p'.status ≠ .faulted) (hi : i.opcode ≠ .inp) (hh : i.opcode ≠ .hlt) :
    p'.status = p.status := by
  cases h with
  | completes h => exact (effect_frame h).status hi hh
  | faults h => exact absurd rfl hf

theorem mem (h : p.Exec cfg i p' o) :
    p'.mem = p.mem ∨ ∃ j w d v, i.writeParam = some (j, w) ∧ p.writeAddr cfg j w = .ok d ∧
      p'.mem = Memory.write p.mem d.toNat v := by
  cases h with
  | completes h => exact effect_mem h
  | faults h => exact .inl rfl

/-- An instruction without a write parameter, or whose write parameter names no address, stores nothing. -/
theorem mem_of_no_target (h : p.Exec cfg i p' o) (hi : ∀ j w, i.writeParam = some (j, w) → p.targetAddr w = none) :
    p'.mem = p.mem := by
  obtain hm | ⟨j, w, d, v, hw, hd, -⟩ := h.mem
  · exact hm
  · obtain ⟨ht, -⟩ := writeAddr_eq_ok.1 hd
    simp [hi j w hw] at ht

/-- Every cell but the one the write parameter names reads as before (R110). -/
theorem read_other (h : p.Exec cfg i p' o) {j : Nat} {w : Operand} (hw : i.writeParam = some (j, w)) {d : Int}
    (hd : p.targetAddr w = some d) {k : Nat} (hk : (k : Int) ≠ d) : Memory.read p'.mem k = Memory.read p.mem k := by
  obtain hm | ⟨j', w', d', v, hw', ha, hm⟩ := h.mem
  · rw [hm]
  · obtain ⟨ht, hl⟩ := writeAddr_eq_ok.1 ha
    cases hw.symm.trans hw'
    cases hd.symm.trans ht
    rw [hm, Memory.read_write_other]
    have := hl.1
    omega

end Processor.Exec

/-! ## The frames of the instructions -/

/-- Settles O27: the four instructions have one write parameter, and none of them is ARB, OUT, IN or HLT. -/
theorem binaryInstructionFrame : Obligations.BinaryInstructionFrame := by
  intro s s' p a b dst i hc hi h
  obtain ⟨p', o, he, rfl⟩ := exec_eq_next hc h
  have shape : i.writeParam = some (3, dst) ∧ i.opcode ≠ .arb ∧ i.opcode ≠ .out ∧ i.opcode ≠ .inp ∧
      i.opcode ≠ .hlt := by
    simp only [List.mem_cons, List.not_mem_nil, or_false] at hi
    rcases hi with rfl | rfl | rfl | rfl <;> simp [Instr.writeParam, Instr.opcode]
  obtain ⟨hw, harb, hout, hin, hhlt⟩ := shape
  obtain ⟨hl, hq⟩ := he.output hout
  refine ⟨s.sameAround_commit p' o, p', State.current_commit hc, he.rb harb, he.inQ hin, hq, hl,
    fun hf => ⟨he.status hf hin hhlt, he.fault hf⟩, fun d hd k hk => he.read_other hw hd hk, ?_⟩
  intro hn
  refine he.mem_of_no_target fun j w hw' => ?_
  cases hw.symm.trans hw'
  exact hn

/-- Settles O28: IN pops its queue, or is Starved, or takes a fault. -/
theorem inputFrame : Obligations.InputFrame := by
  intro s s' p dst hc h
  obtain ⟨p', o, he, rfl⟩ := exec_eq_next hc h
  obtain ⟨hl, hq⟩ := he.output (by simp [Instr.opcode])
  have ends : (p'.inQ = p.inQ ∨ p'.inQ = p.inQ.tail) ∧
      (o ≠ .progress none → p'.mem = p.mem ∧ p'.inQ = p.inQ ∧ p'.ip = p.ip) := by
    cases he with
    | faults he => exact ⟨.inl rfl, fun _ => ⟨rfl, rfl, rfl⟩⟩
    | completes he =>
      obtain ⟨d, -, ⟨-, rfl, -⟩ | ⟨v, q, hv, rfl, rfl⟩⟩ := inputEffect_eq_ok he
      · exact ⟨.inl rfl, fun _ => ⟨rfl, rfl, rfl⟩⟩
      · exact ⟨.inr (by simp [hv]), fun ho => absurd rfl ho⟩
  obtain ⟨hInQ, hRest⟩ := ends
  exact ⟨s.sameAround_commit p' o, p', State.current_commit hc, he.rb (by simp [Instr.opcode]), hq, hl, hInQ,
    he.fault, fun d hd k hk => he.read_other rfl hd hk, fun ho => hRest fun e => ho (congrArg some e)⟩

/-- Settles O29: OUT has no write parameter, and a fault of it leaves the output as it was. -/
theorem outputFrame : Obligations.OutputFrame := by
  intro s s' p v hc h
  obtain ⟨p', o, he, rfl⟩ := exec_eq_next hc h
  have hm : p'.mem = p.mem := he.mem_of_no_target (by simp [Instr.writeParam])
  refine ⟨s.sameAround_commit p' o, p', State.current_commit hc, he.rb (by simp [Instr.opcode]),
    he.inQ (by simp [Instr.opcode]), fun k => by rw [hm],
    fun hf => ⟨he.status hf (by simp [Instr.opcode]) (by simp [Instr.opcode]), he.fault hf⟩, ?_⟩
  intro hf hn
  cases he with
  | faults he => exact ⟨rfl, rfl⟩
  | completes he => exact absurd ((effect_frame he).status (by simp [Instr.opcode]) (by simp [Instr.opcode]) ▸ hf) hn

/-- Settles O30: none of the four has a write parameter or is IN or OUT, and HLT takes no fault. -/
theorem jumpHaltAndRelativeBaseFrame : Obligations.JumpHaltAndRelativeBaseFrame := by
  intro s s' p a b i hc hi h
  obtain ⟨p', o, he, rfl⟩ := exec_eq_next hc h
  have shape : i.writeParam = none ∧ i.opcode ≠ .inp ∧ i.opcode ≠ .out ∧ (i ≠ .arb a → i.opcode ≠ .arb) ∧
      (i ≠ .hlt → i.opcode ≠ .hlt) := by
    simp only [List.mem_cons, List.not_mem_nil, or_false] at hi
    rcases hi with rfl | rfl | rfl | rfl <;> simp [Instr.writeParam, Instr.opcode]
  obtain ⟨hw, hin, hout, harb, hhlt⟩ := shape
  obtain ⟨hl, hq⟩ := he.output hout
  have hm : p'.mem = p.mem := he.mem_of_no_target (by simp [hw])
  refine ⟨s.sameAround_commit p' o, p', State.current_commit hc, he.inQ hin, hq, hl, fun k => by rw [hm],
    fun hi => he.rb (harb hi), fun hf => ⟨he.fault hf, fun hi => he.status hf hin (hhlt hi)⟩, ?_⟩
  rintro rfl
  cases he with
  | faults he => cases he
  | completes he =>
    cases he
    exact ⟨rfl, rfl⟩

/-- Settles O31: the frame of every instruction, read the other way round. -/
theorem onlyTheNamedInstructionsWrite : Obligations.OnlyTheNamedInstructionsWrite := by
  intro s s' p i hc h
  obtain ⟨p', o, he, rfl⟩ := exec_eq_next hc h
  refine ⟨p', State.current_commit hc, fun hn => ?_, fun hn => ?_, fun hn => ?_, fun hn => ?_⟩
  · exact by_contra fun hi => hn (he.rb hi)
  · by_contra hi
    obtain ⟨hl, hq⟩ := he.output hi
    exact hn.elim (absurd hl) (absurd hq)
  · exact by_contra fun hi => hn (he.inQ hi)
  · obtain hm | ⟨j, w, -, -, hw, -, -⟩ := he.mem
    · exact absurd hm hn
    · exact Instr.opcode_of_writeParam hw

/-! ## Every step keeps the machine well-formed -/

namespace Processor.WF
variable {cfg : Config} {p p' : Processor} {i : Instr} {o : StepOutcome}

/-- A Processor that the gate lets through has no fault record (R25). -/
theorem fault_none (h : p.WF cfg) (hs : p.status.Runs) : p.fault = none := by
  have hf : p.status ≠ .faulted := by rcases hs with hs | hs <;> simp [hs]
  simpa [hf] using h.fault_iff

/-- Taking a fault keeps a Processor well-formed (R161). -/
theorem takeFault (h : p.WF cfg) (rec_ : FaultRecord) :
    ({ p with status := .faulted, fault := some rec_ } : Processor).WF cfg where
  cells := ⟨h.cells.rb, h.cells.mem, h.cells.inQ, h.cells.outQ, h.cells.lastOutput⟩
  ip_range := h.ip_range
  mem_wf := h.mem_wf
  mem_bound := h.mem_bound
  blocked_empty := by simp
  blocked_input := by simp
  fault_iff := by simp
  outQ_depth := h.outQ_depth

/-- An injected cell keeps a Processor well-formed, and no longer Blocked (R186). -/
theorem inject (h : p.WF cfg) {v : Cell} (hv : fitsW cfg v) (hi : p.inject cfg v = .ok p') : p'.WF cfg := by
  obtain ⟨-, rfl⟩ := inject_eq_ok.1 hi
  have hinQ : ∀ u ∈ p.inQ ++ [v], fitsW cfg u := by
    intro u hu
    rcases List.mem_append.1 hu with hu | hu
    · exact h.cells.inQ u hu
    · exact List.mem_singleton.1 hu ▸ hv
  have hb : (if p.status = .blocked then Status.running else p.status) ≠ .blocked := by split_ifs <;> simp_all
  have hf : (if p.status = .blocked then Status.running else p.status) = .faulted ↔ p.status = .faulted := by
    split_ifs <;> simp_all
  exact
    { cells := ⟨h.cells.rb, h.cells.mem, hinQ, h.cells.outQ, h.cells.lastOutput⟩
      ip_range := h.ip_range
      mem_wf := h.mem_wf
      mem_bound := h.mem_bound
      blocked_empty := fun e => absurd e hb
      blocked_input := fun e => absurd e hb
      fault_iff := hf.trans h.fault_iff
      outQ_depth := h.outQ_depth }

/-- A Processor that is Blocked after an instruction is at an IN and has an empty InQ (R135, R137). The instruction was
that IN: no other makes a Processor Blocked, and one that was Blocked before it is at an IN by the invariant. -/
theorem effect_blocked (h : p.WF cfg) (hf : p.fetch cfg = .ok i) (he : effect i cfg p = .ok (p', o))
    (hb : p'.status = .blocked) :
    p'.inQ = [] ∧ ∃ w d, p'.fetch cfg = .ok (.inp w) ∧ p'.writeAddr cfg 1 w = .ok d := by
  have hi : ∃ w, i = .inp w := by
    rcases (effect_frame he).blocked hb with hi | hb
    · exact Instr.opcode_eq_inp.1 hi
    · obtain ⟨w, -, hw, -⟩ := h.blocked_input hb
      exact ⟨w, Except.ok.inj (hf.symm.trans hw)⟩
  obtain ⟨w, rfl⟩ := hi
  obtain ⟨d, hd, ⟨hq, rfl, -⟩ | ⟨v, q, -, rfl, -⟩⟩ := inputEffect_eq_ok he
  · have same : ({ p with status := .blocked } : Processor).fetch cfg = p.fetch cfg := fetch_congr rfl rfl
    exact ⟨hq, w, d, same.trans hf, hd⟩
  · cases hb

/-- OutQ stays within QUEUE_DEPTH (R27, R167). -/
theorem effect_outQ_depth (h : p.WF cfg) (he : effect i cfg p = .ok (p', o)) {d : Nat} (hd : cfg.queueDepth = some d) :
    p'.outQ.length ≤ d := by
  by_cases hi : i.opcode = .out
  · obtain ⟨w, rfl⟩ := Instr.opcode_eq_out.1 hi
    obtain ⟨x, -, hq, rfl, -⟩ := outputEffect_eq_ok he
    simpa using length_lt_of_not_full hq hd
  · rw [((effect_frame he).output hi).2]
    exact h.outQ_depth d hd

/-- Memory stays canonical and inside the capacity (R50). -/
theorem effect_mem_keeps (h : p.WF cfg) (he : effect i cfg p = .ok (p', o)) :
    Memory.wf p'.mem ∧ ∀ c ∈ p'.mem, c.1 < cfg.memCapacity := by
  obtain hm | ⟨j, w, d, v, -, hd, hm⟩ := effect_mem he <;> rw [hm]
  · exact ⟨h.mem_wf, h.mem_bound⟩
  · obtain ⟨-, hl⟩ := writeAddr_eq_ok.1 hd
    exact memWrite_keeps (memWrite_of_legal hl p.mem j v) h.mem_wf h.mem_bound

/-- A fetched instruction that completes keeps its Processor well-formed, and reports only values of a cell. -/
theorem effect_keeps (h : p.WF cfg) (hv : cfg.Valid) (hs : p.status.Runs) (hf : p.fetch cfg = .ok i)
    (he : effect i cfg p = .ok (p', o)) : p'.WF cfg ∧ ∀ v, o = .progress (some v) → fitsW cfg v := by
  obtain ⟨hw, -, hcap, -⟩ := hv
  obtain ⟨hcells, hout, hip⟩ := effect_fits (by omega) h.cells (fun q hq => fetch_raw_fits (by omega) h.cells hf hq) he
  obtain ⟨hwf, hbound⟩ := h.effect_mem_keeps he
  have hframe := effect_frame he
  refine ⟨{ cells := hcells, ip_range := ?_, mem_wf := hwf, mem_bound := hbound,
            blocked_empty := fun hb => (h.effect_blocked hf he hb).1
            blocked_input := fun hb => (h.effect_blocked hf he hb).2
            fault_iff := ?_, outQ_depth := fun d hd => h.effect_outQ_depth he hd }, hout⟩
  · rcases hip with hip | hip
    · exact hip
    · have hlt := fetch_bound hf
      rw [Instr.length] at hip
      omega
  · simp [hframe.not_faulted hs, hframe.fault, h.fault_none hs]

end Processor.WF

/-- The cells among the scheduler's registers hold values of a cell (R30 b, g). -/
structure Ring.CellsFit (cfg : Config) (r : Ring) : Prop where
  carry : fitsW cfg r.carry.value
  result : ∀ v, r.result = some v → fitsW cfg v

namespace Ring.CellsFit
variable {cfg : Config} {r : Ring}

theorem abort (h : r.CellsFit cfg) (k : Nat) (rec_ : FaultRecord) : (r.abort k rec_).CellsFit cfg :=
  ⟨h.carry, h.result⟩

theorem invalidate (h : r.CellsFit cfg) : ({ r with carry := { r.carry with valid := false } } : Ring).CellsFit cfg :=
  ⟨h.carry, h.result⟩

theorem capture (h : r.CellsFit cfg) {o : StepOutcome} (ho : ∀ v, o = .progress (some v) → fitsW cfg v) :
    (r.capture o).CellsFit cfg := by
  unfold Ring.capture
  split
  · exact ⟨ho _ rfl, h.result⟩
  · exact ⟨h.carry, h.result⟩
  all_goals exact h

/-- The result is the last output of a Processor (R182). -/
theorem endOfPass (h : r.CellsFit cfg) {procs : List Processor} (hp : ∀ p ∈ procs, p.CellsFit cfg) :
    (r.endOfPass procs).CellsFit cfg := by
  unfold Ring.endOfPass
  refine ⟨?_, ?_⟩
  · dsimp only
    split_ifs
    · split <;> exact h.carry
    · exact h.carry
    · exact h.carry
  · intro v
    dsimp only
    split_ifs
    · split
      · rename_i u hu
        rintro ⟨⟩
        obtain ⟨p, hl, hv⟩ := Option.bind_eq_some_iff.1 hu
        exact (hp p (List.mem_of_getLast? hl)).lastOutput v hv
      · exact h.result v
    · exact h.result v
    · exact h.result v

end Ring.CellsFit

namespace State.WF
variable {s s' : State} {p : Processor} {r : Ring}

theorem ringCells (h : s.WF) (hr : s.ring = some r) : r.CellsFit s.cfg :=
  ⟨h.carry_fits r hr, fun v => h.result_fits r v hr⟩

theorem setOutcome (h : s.WF) (o : Option StepOutcome) : ({ s with outcome := o } : State).WF :=
  ⟨h.cfg_valid, h.cursor_lt, h.count, h.procs_wf, h.carry_fits, h.result_fits⟩

theorem setCurrent (h : s.WF) (hp : p.WF s.cfg) : (s.setCurrent p).WF where
  cfg_valid := h.cfg_valid
  cursor_lt := by simpa using h.cursor_lt
  count := by simpa using h.count
  procs_wf q hq := by
    rcases List.mem_or_eq_of_mem_set hq with hq | rfl
    · exact h.procs_wf q hq
    · exact hp
  carry_fits := h.carry_fits
  result_fits := h.result_fits

theorem commit (h : s.WF) (hp : p.WF s.cfg) (o : StepOutcome) : (s.commit p o).WF := (h.setCurrent hp).setOutcome _

theorem setRing (h : s.WF) (hs : s.ring.isSome) (hr : r.CellsFit s.cfg) : ({ s with ring := some r } : State).WF where
  cfg_valid := h.cfg_valid
  cursor_lt := h.cursor_lt
  count := by
    obtain ⟨r₀, h₀⟩ := Option.isSome_iff_exists.1 hs
    simpa [h₀] using h.count
  procs_wf := h.procs_wf
  carry_fits := by
    rintro _ ⟨⟩
    exact hr.carry
  result_fits := by
    rintro _ v ⟨⟩
    exact hr.result v

theorem setCursor (h : s.WF) {n : Nat} (hn : n < s.procs.length) : ({ s with cursor := n } : State).WF :=
  ⟨h.cfg_valid, hn, h.count, h.procs_wf, h.carry_fits, h.result_fits⟩

/-- A step of the Processor at the cursor keeps the machine well-formed, and reports only values of a cell. -/
theorem stepCurrent (h : s.WF) (hs : s.stepCurrent = .next s') :
    s'.WF ∧ ∀ v, s'.outcome = some (.progress (some v)) → fitsW s'.cfg v := by
  obtain ⟨p, hc, ⟨-, rfl⟩ | ⟨-, e, -, rfl⟩ | ⟨hruns, i, p', o, hf, he, rfl⟩⟩ := stepCurrent_cases hs
  · exact ⟨h.setOutcome _, by simp⟩
  · exact ⟨h.commit ((h.procs_wf p (current_mem hc)).takeFault _) _, by simp⟩
  · obtain ⟨hp, ho⟩ := (h.procs_wf p (current_mem hc)).effect_keeps h.cfg_valid hruns hf he
    exact ⟨h.commit hp o, fun v hv => ho v (Option.some.inj hv)⟩

/-- The end of a slot keeps the machine well-formed (R178, R179). -/
theorem endSlot (h : s.WF) (hs : s.ring.isSome) (hr : r.CellsFit s.cfg)
    (ho : ∀ v, s.outcome = some (.progress (some v)) → fitsW s.cfg v) : (s.endSlot r).WF := by
  unfold State.endSlot
  split
  · exact h.setRing hs (hr.abort _ _)
  · rename_i o _ hout
    have hcap : (r.capture o).CellsFit s.cfg := hr.capture fun v hv => ho v (hv ▸ hout)
    refine (h.setRing hs ?_).setCursor (Nat.mod_lt _ (Nat.zero_lt_of_lt h.cursor_lt))
    split_ifs
    · exact hcap.endOfPass fun p hp => (h.procs_wf p hp).cells
    · exact hcap
  · exact h

theorem slotStep (h : s.WF) (hs : s.ring.isSome) (hr : r.CellsFit s.cfg) (hn : s.slotStep r = .next s') : s'.WF := by
  obtain ⟨s₁, h₁, rfl⟩ := slotStep_eq_next.1 hn
  obtain ⟨hwf, ho⟩ := h.stepCurrent h₁
  have same := stepCurrent_sameAround h₁
  exact hwf.endSlot (same.ring ▸ hs) (same.cfg ▸ hr) ho

theorem slot (h : s.WF) (hs : s.ring = some r) (hn : s.slot r = .next s') : s'.WF := by
  have hr := h.ringCells hs
  have hsome : s.ring.isSome := by simp [hs]
  obtain ⟨p, hc, ⟨-, hn⟩ | ⟨-, -, rfl⟩ | ⟨-, -, p', hi, hn⟩⟩ := slot_cases hn
  · exact h.slotStep hsome hr hn
  · exact h.setRing hsome (hr.abort _ _)
  · have hp : p'.WF s.cfg := (h.procs_wf p (current_mem hc)).inject hr.carry hi
    exact ((h.setCurrent hp).setRing hsome hr.invalidate).slotStep rfl hr.invalidate hn

end State.WF

/-- Settles O46: a Processor's step or a slot, each keeping the invariant of every Processor and of the ring. -/
theorem everyStepKeepsTheMachineWellFormed : Obligations.EveryStepKeepsTheMachineWellFormed := by
  intro s s' h hs
  obtain ⟨-, hs⟩ | ⟨r, hr, -, hs⟩ := step_cases hs
  · exact (h.stepCurrent hs).1
  · exact h.slot hr hs

/-! ## Stopped Processors -/

namespace State
variable {s s' : State} {k : Nat} {p : Processor} {r : Ring}

theorem single_eq_ok : s.single = .ok p ↔ s.ring = none ∧ s.current = some p := by
  unfold single
  cases s.ring <;> cases s.current <;> simp

theorem injectInput_eq_ok {v : Cell} (h : s.injectInput v = .ok s') :
    ∃ p p', s.single = .ok p ∧ p.inject s.cfg v = .ok p' ∧ s' = s.setCurrent p' := by
  unfold injectInput at h
  cases hp : s.single with
  | error e => simp [hp] at h
  | ok p =>
    by_cases hv : fitsW s.cfg v
    · cases hi : p.inject s.cfg v with
      | error e => simp [hp, hv, hi] at h
      | ok p' => exact ⟨p, p', rfl, hi, by simpa [hp, hv, hi, eq_comm] using h⟩
    · simp [hp, hv] at h

theorem drainOutput_eq_ok {out : List Cell} :
    s.drainOutput = .ok (out, s') ↔ ∃ p, s.single = .ok p ∧ out = p.outQ ∧ s' = s.setCurrent { p with outQ := [] } := by
  unfold drainOutput
  cases s.single <;> simp [eq_comm]

/-- A step changes no stopped Processor, at the cursor or elsewhere (R96, R171). -/
theorem stepCurrent_of_stopped_at (h : s.stepCurrent = .next s') (hk : s.procs[k]? = some p)
    (hp : ¬ p.status.Runs) : s'.procs[k]? = some p := by
  by_cases hcur : k = s.cursor
  · subst hcur
    rw [stepCurrent_of_stopped hk hp] at h
    cases h
    exact hk
  · rw [(stepCurrent_sameAround h).others k hcur, hk]

@[simp] theorem endSlot_procs (s : State) (r : Ring) : (s.endSlot r).procs = s.procs := by
  unfold endSlot
  split <;> rfl

theorem slotStep_of_stopped_at (h : s.slotStep r = .next s') (hk : s.procs[k]? = some p)
    (hp : ¬ p.status.Runs) : s'.procs[k]? = some p := by
  obtain ⟨s₁, h₁, rfl⟩ := slotStep_eq_next.1 h
  rw [endSlot_procs]
  exact stepCurrent_of_stopped_at h₁ hk hp

/-- An injection at the cursor does nothing to a stopped Processor but push onto its InQ (R186). -/
theorem setCurrent_inject_of_stopped {q q' : Processor} {v : Cell} (hc : s.current = some q)
    (hi : q.inject s.cfg v = .ok q') (hk : s.procs[k]? = some p) (hp : ¬ p.status.Runs) :
    ∃ added, (s.setCurrent q').procs[k]? = some { p with inQ := p.inQ ++ added } := by
  by_cases hcur : k = s.cursor
  · subst hcur
    cases hc.symm.trans hk
    obtain ⟨-, rfl⟩ := inject_eq_ok.1 hi
    have hb : p.status ≠ .blocked := fun e => hp (.inr e)
    exact ⟨[v], by simp [current_lt hc, hb]⟩
  · exact ⟨[], by rw [setCurrent_other s q' hcur, hk, List.append_nil]⟩

/-- A step of the block does nothing to a stopped Processor but push onto its InQ (R171, R174). -/
theorem step_of_stopped_at (h : step s = .next s') (hk : s.procs[k]? = some p) (hp : ¬ p.status.Runs) :
    ∃ added, s'.procs[k]? = some { p with inQ := p.inQ ++ added } := by
  have unchanged : s'.procs[k]? = some p → ∃ added, s'.procs[k]? = some { p with inQ := p.inQ ++ added } :=
    fun h => ⟨[], by simpa using h⟩
  obtain ⟨-, h⟩ | ⟨r, -, -, h⟩ := step_cases h
  · exact unchanged (stepCurrent_of_stopped_at h hk hp)
  · obtain ⟨q, hc, ⟨-, h⟩ | ⟨-, -, rfl⟩ | ⟨-, -, q', hi, h⟩⟩ := slot_cases h
    · exact unchanged (slotStep_of_stopped_at h hk hp)
    · exact unchanged hk
    · obtain ⟨added, ha⟩ := setCurrent_inject_of_stopped hc hi hk hp
      exact ⟨added, slotStep_of_stopped_at h ha hp⟩

theorem after_step (h : s.after .step = some s') : step s = .next s' := by
  unfold after at h
  cases hs : step s <;> simp [hs] at h
  rw [h]

theorem after_inject {v : Cell} (h : s.after (.inject v) = some s') : s.injectInput v = .ok s' := by
  unfold after at h
  cases hs : s.injectInput v <;> simp [hs] at h
  rw [h]

theorem after_drain (h : s.after .drain = some s') : ∃ out, s.drainOutput = .ok (out, s') := by
  unfold after at h
  cases hs : s.drainOutput with
  | error e => simp [hs] at h
  | ok r => exact ⟨r.1, by simpa [hs, Prod.ext_iff] using h⟩

end State

/-- Settles O49: a step and an injection only push onto InQ, and a drain only empties OutQ. -/
theorem stoppedProcessorsStayStopped : Obligations.StoppedProcessorsStayStopped := by
  intro s s' e k p he hk hp
  have hp : ¬ p.status.Runs := by rcases hp with hp | hp <;> simp [hp]
  cases e with
  | step =>
    obtain ⟨added, ha⟩ := State.step_of_stopped_at (State.after_step he) hk hp
    exact ⟨_, added, ha, rfl, .inl rfl⟩
  | inject v =>
    obtain ⟨q, q', hq, hi, rfl⟩ := State.injectInput_eq_ok (State.after_inject he)
    obtain ⟨added, ha⟩ := State.setCurrent_inject_of_stopped (State.single_eq_ok.1 hq).2 hi hk hp
    exact ⟨_, added, ha, rfl, .inl rfl⟩
  | drain =>
    obtain ⟨out, hd⟩ := State.after_drain he
    obtain ⟨q, hq, -, rfl⟩ := State.drainOutput_eq_ok.1 hd
    obtain ⟨-, hc⟩ := State.single_eq_ok.1 hq
    by_cases hcur : k = s.cursor
    · subst hcur
      cases hc.symm.trans hk
      exact ⟨{ p with outQ := [] }, [], by simp [State.current_lt hc], by simp, .inr ⟨rfl, rfl⟩⟩
    · exact ⟨p, [], by rw [State.setCurrent_other _ _ hcur, hk], by simp, .inl rfl⟩

end Machine
end Sys2Proof

namespace Sys2Proof.Machine

/-! ## Memory in canonical form -/

namespace Memory
variable {m m' : Memory}

/-- The canonical form lists exactly the cells that do not read 0. -/
theorem mem_iff_read (h : wf m) {a : Nat} {v : Cell} : (a, v) ∈ m ↔ v ≠ 0 ∧ read m a = v := by
  induction m with
  | nil => simp [eq_comm]
  | cons c m ih =>
    obtain ⟨b, u⟩ := c
    obtain ⟨hb, hu, hm⟩ := wf_cons.1 h
    rw [List.mem_cons, Prod.mk.injEq, read]
    by_cases hab : a = b
    · subst hab
      have absent : (a, v) ∉ m := fun hc => lt_irrefl a (hb _ hc)
      rw [if_pos rfl]
      constructor
      · rintro (⟨-, rfl⟩ | hc)
        · exact ⟨hu, rfl⟩
        · exact absurd hc absent
      · rintro ⟨-, rfl⟩
        exact .inl ⟨rfl, rfl⟩
    · rw [if_neg hab, ← ih hm, or_iff_right fun e => hab e.1]

/-- In canonical form a memory is what it reads: it is the strictly rising list of the cells that do not read 0. -/
theorem eq_of_read_eq (h : wf m) (h' : wf m') (hr : ∀ k, read m k = read m' k) : m = m' := by
  have irrefl : Std.Irrefl fun c d : Nat × Cell => c.1 < d.1 := ⟨fun c => lt_irrefl c.1⟩
  have antisymm : Std.Antisymm fun c d : Nat × Cell => c.1 < d.1 := ⟨fun _ _ h₁ h₂ => absurd h₁ h₂.asymm⟩
  refine List.Pairwise.eq_of_mem_iff h.1 h'.1 fun c => ?_
  rw [mem_iff_read h, mem_iff_read h', hr]

end Memory

/-- Settles O12: the laws of a write, and extensionality of the canonical form. -/
theorem memoryReadsBackTheLastWrite : Obligations.MemoryReadsBackTheLastWrite := by
  intro m m' a v h
  exact ⟨Memory.write_wf h a v, Memory.read_write_same h a v, fun k hk => Memory.read_write_other hk m v,
    Memory.eq_of_read_eq h⟩

/-! ## A store and the fetch after it -/

/-- An instruction of format F3 whose ALU result is known stores it and moves ip on by 4. -/
theorem binaryEffect_of_result {alu : Config → Cell → Cell → Except Raise Cell} {a b dst : Operand} {cfg : Config}
    {p : Processor} {d : Int} {v : Cell} (hd : p.writeAddr cfg 3 dst = .ok d)
    (hv : (do alu cfg (← p.readOperand cfg 1 a) (← p.readOperand cfg 2 b)).toOption = some v) :
    binaryEffect alu a b dst cfg p =
      .ok ({ p with mem := Memory.write p.mem d.toNat v, ip := p.ip + 4 }, .progress none) := by
  simp only [bind, Except.bind] at hv
  cases hx : p.readOperand cfg 1 a with
  | error r => simp [hx, Except.toOption] at hv
  | ok x =>
  cases hy : p.readOperand cfg 2 b with
  | error r => simp [hx, hy, Except.toOption] at hv
  | ok y =>
  cases hr : alu cfg x y with
  | error r => simp [hx, hy, hr, Except.toOption] at hv
  | ok r =>
    obtain rfl : r = v := by simpa [hx, hy, hr, Except.toOption] using hv
    exact binaryEffect_of hx hy hd hr

/-- An instruction that has a value to store and a legal target completes: it stores the value there and moves ip on by
its length (R109, R110). -/
theorem effect_of_storedValue {i : Instr} {cfg : Config} {p : Processor} {j : Nat} {w : Operand} {d : Int} {v : Cell}
    (hw : i.writeParam = some (j, w)) (hd : p.writeAddr cfg j w = .ok d) (hv : p.storedValue cfg i = some v) :
    ∃ p', effect i cfg p = .ok (p', .progress none) ∧ p'.mem = Memory.write p.mem d.toNat v ∧
      p'.ip = p.ip + i.length := by
  cases i with
  | add a b dst | mul a b dst =>
    cases hw
    exact ⟨_, binaryEffect_of_result hd hv, rfl, rfl⟩
  | lt a b dst =>
    cases hw
    exact ⟨_, binaryEffect_of_result (alu := fun _ x y => .ok (aluLt x y)) hd hv, rfl, rfl⟩
  | eq a b dst =>
    cases hw
    exact ⟨_, binaryEffect_of_result (alu := fun _ x y => .ok (aluEq x y)) hd hv, rfl, rfl⟩
  | inp dst =>
    cases hw
    obtain ⟨q, hq⟩ := List.head?_eq_some_iff.1 hv
    exact ⟨_, inputEffect_of_cons hd hq, rfl, rfl⟩
  | out _ | jt _ _ | jf _ _ | arb _ | hlt => cases hw

/-- The cells from ip on after a store are those before it with the stored cell replaced. -/
theorem window_of_write {p : Processor} {m : Memory} {d : Int} {v : Cell} (hm : Memory.wf m) (hd : 0 ≤ d)
    (hp : p.mem = Memory.write m d.toNat v) (n : Nat) :
    p.window n =
      (List.range n).map fun k => if ((p.ip + k : Nat) : Int) = d then v else Memory.read m (p.ip + k) := by
  refine List.map_congr_left fun k _ => ?_
  rw [hp]
  split_ifs with hk
  · rw [show d.toNat = p.ip + k by omega, Memory.read_write_same hm]
  · rw [Memory.read_write_other (by omega)]

theorem window_headD (p : Processor) (n : Nat) : (p.window (n + 1)).headD 0 = Memory.read p.mem p.ip := by
  simp [Processor.window, List.range_succ_eq_map]

/-- Where ip names a cell whose word the decoder rejects, the fetch takes that word's fault (R98 to R100). -/
theorem fetch_of_decodeHeader_error {cfg : Config} {p : Processor} {e : DecodeFault}
    (h : decodeHeader (Memory.read p.mem p.ip) = .error e) (hl : p.ip < cfg.memCapacity) :
    p.fetch cfg = .error (raiseOfDecode e) := by
  have hw : memRead cfg p.mem 0 p.ip = .ok (Memory.read p.mem p.ip) := memRead_eq_ok.2 ⟨by omega, rfl⟩
  simp only [Processor.fetch, hw, h]

/-- Settles O42: the store is in the memory that the next fetch reads, and ip moved on by the length alone. -/
theorem nextFetchSeesTheWrite : Obligations.NextFetchSeesTheWrite := by
  intro s p i j w d v hc hm hw hd hv
  obtain ⟨p', he, hmem, hip⟩ := effect_of_storedValue hw hd hv
  obtain ⟨-, hl⟩ := writeAddr_eq_ok.1 hd
  refine ⟨s.commit p' (.progress none), p', ?_, State.current_commit hc, hip, ?_⟩
  · rw [exec_of_current hc, he, State.finish_ok]
  · rw [← window_of_write hm hl.1 hmem]
    refine ⟨fun i' rest hdec => fetch_of_decode hdec, fun e hbad => ?_⟩
    rw [window_headD] at hbad
    exact fetch_of_decodeHeader_error hbad

/-! ## The Processors away from the cursor -/

/-- Parameters and every Processor but the one at the cursor of `s` are the same in `s'`; unlike `State.SameAround`, the
scheduler's registers may differ. -/
structure State.KeepsOthers (s s' : State) : Prop where
  cfg : s'.cfg = s.cfg
  count : s'.procs.length = s.procs.length
  others : ∀ k, k ≠ s.cursor → s'.procs[k]? = s.procs[k]?

namespace State
variable {s s₁ s' : State} {r : Ring}

theorem SameAround.keepsOthers (h : s.SameAround s') : s.KeepsOthers s' := ⟨h.cfg, h.count, h.others⟩

theorem KeepsOthers.trans (h : s.KeepsOthers s₁) (hc : s₁.cursor = s.cursor) (h' : s₁.KeepsOthers s') :
    s.KeepsOthers s' where
  cfg := h'.cfg.trans h.cfg
  count := h'.count.trans h.count
  others k hk := (h'.others k (hc ▸ hk)).trans (h.others k hk)

@[simp] theorem endSlot_cfg (s : State) (r : Ring) : (s.endSlot r).cfg = s.cfg := by
  unfold endSlot
  split <;> rfl

/-- What follows the step of a slot changes no Processor at all (R178). -/
theorem keepsOthers_endSlot (s : State) (r : Ring) : s.KeepsOthers (s.endSlot r) :=
  ⟨endSlot_cfg s r, by rw [endSlot_procs], fun _ _ => by rw [endSlot_procs]⟩

theorem slotStep_keepsOthers (h : s.slotStep r = .next s') : s.KeepsOthers s' := by
  obtain ⟨s₁, h₁, rfl⟩ := slotStep_eq_next.1 h
  have same := stepCurrent_sameAround h₁
  exact same.keepsOthers.trans same.cursor (keepsOthers_endSlot s₁ r)

/-- A carry is injected into the Processor at the cursor, and into no other (R177, R178). -/
theorem keepsOthers_setCurrent_ring (s : State) (p : Processor) (g : Option Ring) :
    s.KeepsOthers { s.setCurrent p with ring := g } :=
  ⟨rfl, by simp, fun _ hk => setCurrent_other s p hk⟩

theorem slot_keepsOthers (h : s.slot r = .next s') : s.KeepsOthers s' := by
  obtain ⟨p, -, ⟨-, h⟩ | ⟨-, -, rfl⟩ | ⟨-, -, p', -, h⟩⟩ := slot_cases h
  · exact slotStep_keepsOthers h
  · exact ⟨rfl, rfl, fun _ _ => rfl⟩
  · exact (keepsOthers_setCurrent_ring s p' _).trans rfl (slotStep_keepsOthers h)

end State

/-- Settles O50: a Processor's step, or a slot of the ring, whose injection and step both act at the cursor. -/
theorem otherProcessorsKeepTheirState : Obligations.OtherProcessorsKeepTheirState := by
  intro s s' h
  have keeps : s.KeepsOthers s' := by
    obtain ⟨-, h⟩ | ⟨r, -, -, h⟩ := step_cases h
    · exact (State.stepCurrent_sameAround h).keepsOthers
    · exact State.slot_keepsOthers h
  exact ⟨keeps.cfg, keeps.count, keeps.others⟩

end Sys2Proof.Machine

namespace Sys2Proof

/-! ## Opcode numbers, mode digits and the fields of a word (30_encoding.md R77 to R82) -/

namespace Opcode

theorem ofNumber?_eq_some {n : Int} {op : Opcode} : ofNumber? n = some op ↔ op.number = n := by
  constructor
  · intro h
    simpa using List.find?_some h
  · rintro rfl
    cases op <;> rfl

theorem ofNumber?_eq_none {n : Int} :
    ofNumber? n = none ↔ n ∉ ([1, 2, 3, 4, 5, 6, 7, 8, 9, 99] : List Int) := by
  rw [ofNumber?, List.find?_eq_none]
  simp [all, number, @eq_comm Int n]

theorem number_bounds (op : Opcode) : 0 < op.number ∧ op.number < 100 := by
  cases op <;> decide

end Opcode

namespace Mode

theorem ofDigit?_eq_some {d : Int} {m : Mode} : ofDigit? d = some m ↔ m.number = d := by
  constructor
  · intro h
    unfold ofDigit? at h
    split_ifs at h with h0 h1 h2 <;> cases h
    · exact h0.symm
    · exact h1.symm
    · exact h2.symm
  · rintro rfl
    cases m <;> rfl

theorem number_bounds (m : Mode) : 0 ≤ m.number ∧ m.number < 10 := by
  cases m <;> decide

end Mode

theorem opcodeField_of_nonneg {w : Int} (hw : 0 ≤ w) : opcodeField w = w % 100 :=
  Int.tmod_eq_emod_of_nonneg hw

/-- R82: the truncated remainder takes the sign of the word. -/
theorem opcodeField_bounds_of_nonpos {w : Int} (hw : w ≤ 0) : -99 ≤ opcodeField w ∧ opcodeField w ≤ 0 := by
  obtain ⟨-, hl, hu⟩ := (Int.tdiv_tmod_unique' hw (by decide : (100 : Int) ≠ 0)).1 ⟨rfl, rfl⟩
  exact ⟨by rw [opcodeField]; omega, hu⟩

/-- Digit `k` of a word that is not negative is the top one of its lowest `k + 1` digits. -/
theorem digit_of_nonneg {w : Int} (hw : 0 ≤ w) (k : Nat) : digit w k = w % 10 ^ (k + 1) / 10 ^ k := by
  rw [digit, Int.tdiv_eq_ediv_of_nonneg hw, Int.tmod_eq_emod_of_nonneg (Int.ediv_nonneg hw (by positivity)), pow_succ]
  lift w to ℕ using hw
  exact_mod_cast (Nat.mod_mul_right_div_self w (10 ^ k) 10).symm

/-! ## What the decoder answers -/

/-- The only fault of the modes is an illegal digit (R99). -/
theorem decodeModes_eq_error {w : Int} {i n : Nat} {e : DecodeFault} (h : decodeModes w i n = .error e) :
    ∃ k, e = .invalidParameterMode k (modeField w k) := by
  induction n generalizing i with
  | zero => cases h
  | succ n ih =>
    simp only [decodeModes] at h
    split at h
    · cases h
      exact ⟨i, rfl⟩
    · split at h
      · rename_i hms
        cases h
        exact ih hms
      · cases h

theorem decodeModes_cons {w : Int} {i n : Nat} {m : Mode} {ms : List Mode} (hm : m.number = modeField w i)
    (hms : decodeModes w (i + 1) n = .ok ms) : decodeModes w i (n + 1) = .ok (m :: ms) := by
  simp only [decodeModes, Mode.ofDigit?_eq_some.2 hm, hms]

theorem decodeModes_congr {w w' : Int} {i n : Nat} (h : ∀ k, k < i + n → modeField w k = modeField w' k) :
    decodeModes w i n = decodeModes w' i n := by
  induction n generalizing i with
  | zero => rfl
  | succ n ih => rw [decodeModes, decodeModes, h i (by omega), ih fun k hk => h k (by omega)]

theorem decodeHeader_eq_invalidOpcode {w : Cell} :
    decodeHeader w = .error .invalidOpcode ↔ Opcode.ofNumber? (opcodeField w) = none := by
  unfold decodeHeader
  cases Opcode.ofNumber? (opcodeField w) with
  | none => simp
  | some op =>
    dsimp only
    cases hm : decodeModes w 1 op.arity with
    | error e =>
      obtain ⟨k, rfl⟩ := decodeModes_eq_error hm
      simp
    | ok ms =>
      dsimp only
      split_ifs <;> simp

/-- DECODE looks at the opcode's digits and at the modes of its parameters alone (R81). -/
theorem decodeHeader_congr {w w' : Cell} {op : Opcode} (hop : Opcode.ofNumber? (opcodeField w) = some op)
    (hf : opcodeField w = opcodeField w') (hm : ∀ k, k < 1 + op.arity → modeField w k = modeField w' k) :
    decodeHeader w = decodeHeader w' := by
  simp only [decodeHeader, ← hf, hop, decodeModes_congr hm]

theorem Header.instr_operands (h : Header) (raws : List Cell) :
    (h.instr raws).operands = (List.range h.op.arity).map fun k => ⟨h.mode (k + 1), raws.getD k 0⟩ := by
  obtain ⟨op, ms⟩ := h
  cases op <;> rfl

theorem Header.instr_raws (h : Header) {raws : List Cell} (hl : raws.length = h.op.arity) :
    (h.instr raws).operands.map Operand.raw = raws := by
  refine List.ext_getElem (by simp [instr_operands, hl]) fun k _ hk => ?_
  simp [instr_operands, List.getElem?_eq_getElem hk]

/-- Parameter `k + 1` of a decoded instruction has the mode of its digit (R79). -/
theorem Header.instr_mode {w : Cell} {h : Header} {raws : List Cell} {k : Nat} {o : Operand}
    (hd : decodeHeader w = .ok h) (ho : (h.instr raws).operands[k]? = some o) :
    modeField w (k + 1) = o.mode.number := by
  obtain ⟨-, hms, -⟩ := decodeHeader_eq_ok.1 hd
  have hk : k < h.op.arity := by
    have := (List.getElem?_eq_some_iff.1 ho).1
    rwa [instr_operands_length] at this
  obtain rfl : ⟨h.mode (k + 1), raws.getD k 0⟩ = o := by simpa [instr_operands, hk] using ho
  have hmode : h.modes[k]? = some (h.mode (k + 1)) := by
    have hlen : k < h.modes.length := by rwa [decodeModes_length hms]
    simp [Header.mode, List.getElem?_eq_getElem hlen]
  have hdigit := Mode.ofDigit?_eq_some.1 (decodeModes_digit hms hmode)
  rw [Nat.add_comm 1 k] at hdigit
  exact hdigit.symm

/-- Settles O3: the instruction is made of the word's header and of the raw cells behind the word. -/
theorem decodedInstructionsAreWellFormed : Obligations.DecodedInstructionsAreWellFormed := by
  intro w cells rest i hdec
  obtain ⟨h, hd, hl, rfl, rfl⟩ := decode_cons_eq_ok.1 hdec
  obtain ⟨hop, -, -⟩ := decodeHeader_eq_ok.1 hd
  refine ⟨decodeHeader_wellFormed hd _, ?_, ?_, fun k o => Header.instr_mode hd⟩
  · rw [Header.instr_opcode, Opcode.ofNumber?_eq_some.1 hop]
  · rw [Header.instr_raws h (by simpa using hl), List.cons_append, List.take_append_drop]

/-- Settles O4: the fields DECODE looks at are those of the word modulo `10 ^ (arity + 2)`. -/
theorem digitsBeyondTheArityAreIgnored : Obligations.DigitsBeyondTheArityAreIgnored := by
  intro w w' op hw hw' hop heq
  have low : ∀ k, k ≤ op.arity + 2 → w % 10 ^ k = w' % 10 ^ k := fun k hk => by
    have hdvd : (10 : Int) ^ k ∣ 10 ^ (op.arity + 2) := pow_dvd_pow 10 hk
    rw [← Int.emod_emod_of_dvd w hdvd, heq, Int.emod_emod_of_dvd w' hdvd]
  have hf : opcodeField w = opcodeField w' := by
    rw [opcodeField_of_nonneg hw, opcodeField_of_nonneg hw']
    exact low 2 (by omega)
  refine decodeHeader_congr hop hf fun k hk => ?_
  rw [modeField, modeField, digit_of_nonneg hw, digit_of_nonneg hw', low (k + 1 + 1) (by omega)]

/-- Settles O5: no other stage of DECODE gives this fault. -/
theorem exactlyTheTenOpcodesAreValid : Obligations.ExactlyTheTenOpcodesAreValid :=
  fun _ => decodeHeader_eq_invalidOpcode.trans Opcode.ofNumber?_eq_none

/-- Settles O6: every opcode number is positive. -/
theorem negativeWordsAndZeroAreInvalid : Obligations.NegativeWordsAndZeroAreInvalid := by
  intro w
  refine ⟨fun hw => opcodeField_bounds_of_nonpos hw.le, fun hw => decodeHeader_eq_invalidOpcode.2 ?_⟩
  rw [Option.eq_none_iff_forall_ne_some]
  intro op hop
  have := (opcodeField_bounds_of_nonpos hw).2
  have := op.number_bounds.1
  have := Opcode.ofNumber?_eq_some.1 hop
  omega

/-! ## What the encoder writes -/

/-- The header of an instruction: what DECODE reads from its canonical word. -/
def Instr.header (i : Instr) : Header := ⟨i.opcode, i.operands.map Operand.mode⟩

theorem Instr.header_instr (i : Instr) : i.header.instr (i.operands.map Operand.raw) = i := by
  cases i <;> rfl

theorem Instr.WellFormed.header_mode_wparam {i : Instr} (h : i.WellFormed) :
    ¬ (i.header.op.wparam ≠ 0 ∧ i.header.mode i.header.op.wparam = .immediate) := by
  rintro ⟨hw, hm⟩
  cases i with
  | add _ _ d | mul _ _ d | lt _ _ d | eq _ _ d | inp d => exact h _ rfl hm
  | out _ | jt _ _ | jf _ _ | arb _ | hlt => exact hw rfl

theorem modeWeights_nonneg (i : Nat) (os : List Operand) : 0 ≤ modeWeights i os := by
  induction os generalizing i with
  | nil => exact le_rfl
  | cons o os ih => exact add_nonneg (mul_nonneg o.mode.number_bounds.1 (by positivity)) (ih (i + 1))

theorem pow_dvd_modeWeights (i : Nat) (os : List Operand) : 10 ^ (i + 1) ∣ modeWeights i os := by
  induction os generalizing i with
  | nil => exact dvd_zero _
  | cons o os ih => exact dvd_add (dvd_mul_left _ _) ((pow_dvd_pow 10 (Nat.le_succ _)).trans (ih (i + 1)))

/-- Parameter `i`'s weight takes up digit `i + 1` and no more. -/
theorem add_modeWeight_lt {r : Int} {i : Nat} (hlt : r < 10 ^ (i + 1)) (m : Mode) :
    r + m.number * 10 ^ (i + 1) < 10 ^ (i + 1 + 1) := by
  have hm : m.number * 10 ^ (i + 1) ≤ 9 * 10 ^ (i + 1) :=
    mul_le_mul_of_nonneg_right (Int.le_of_lt_add_one m.number_bounds.2) (by positivity)
  rw [pow_succ 10 (i + 1)]
  linarith

/-- The weights of the parameters after `i` do not reach down to digit `i + 1`, nor does a rest below `10 ^ (i + 1)`
reach up to it. -/
theorem modeField_modeWeights {r : Int} {i : Nat} (hr : 0 ≤ r) (hlt : r < 10 ^ (i + 1)) (o : Operand)
    (os : List Operand) : modeField (r + modeWeights i (o :: os)) i = o.mode.number := by
  have hm := o.mode.number_bounds.1
  have hpos : (0 : Int) < 10 ^ (i + 1) := by positivity
  obtain ⟨c, hc⟩ := pow_dvd_modeWeights (i + 1) os
  rw [modeField, digit_of_nonneg (add_nonneg hr (modeWeights_nonneg i _)), modeWeights, hc, ← add_assoc,
    Int.add_mul_emod_self_left, Int.emod_eq_of_lt (by positivity) (add_modeWeight_lt hlt o.mode), mul_comm,
    Int.add_mul_ediv_left _ _ hpos.ne', Int.ediv_eq_zero_of_lt hr hlt, zero_add]

/-- The decoder reads back the modes that the encoder weighed, whatever stands in the digits below them. -/
theorem decodeModes_modeWeights {r : Int} {i : Nat} (os : List Operand) (hr : 0 ≤ r) (hlt : r < 10 ^ (i + 1)) :
    decodeModes (r + modeWeights i os) i os.length = .ok (os.map Operand.mode) := by
  induction os generalizing r i with
  | nil => rfl
  | cons o os ih =>
    refine decodeModes_cons (modeField_modeWeights hr hlt o os).symm ?_
    have hm := o.mode.number_bounds.1
    rw [modeWeights, ← add_assoc]
    exact ih (by positivity) (add_modeWeight_lt hlt o.mode)

theorem Instr.word_nonneg (i : Instr) : 0 ≤ i.word :=
  add_nonneg i.opcode.number_bounds.1.le (modeWeights_nonneg 1 _)

theorem opcodeField_word (i : Instr) : opcodeField i.word = i.opcode.number := by
  obtain ⟨hpos, hlt⟩ := i.opcode.number_bounds
  obtain ⟨c, hc⟩ := pow_dvd_modeWeights 1 i.operands
  rw [opcodeField_of_nonneg i.word_nonneg, Instr.word, hc]
  omega

theorem decodeHeader_word {i : Instr} (h : i.WellFormed) : decodeHeader i.word = .ok i.header := by
  refine decodeHeader_eq_ok.2 ⟨Opcode.ofNumber?_eq_some.2 (opcodeField_word i).symm, ?_, h.header_mode_wparam⟩
  obtain ⟨hpos, hlt⟩ := i.opcode.number_bounds
  rw [show i.header.op.arity = i.operands.length from i.operands_length.symm]
  exact decodeModes_modeWeights i.operands hpos.le (by norm_num; omega)

/-- Settles O1: the canonical word decodes to the instruction's header, and the raw cells behind it make it whole. -/
theorem decodeOfEncodeIsTheInstruction : Obligations.DecodeOfEncodeIsTheInstruction := by
  intro i rest h
  have hlen : i.header.op.arity = (i.operands.map Operand.raw).length := by
    rw [List.length_map, i.operands_length, Instr.header]
  rw [encode, List.cons_append]
  refine decode_cons_eq_ok.2 ⟨i.header, decodeHeader_word h, ?_, ?_, ?_⟩
  · simp [hlen]
  · rw [hlen, List.take_left, i.header_instr]
  · rw [hlen, List.drop_left]

/-- Settles O2: at most three parameters, each weighed by its own power of 10. -/
theorem canonicalWordWeighsTheModes : Obligations.CanonicalWordWeighsTheModes := by
  intro i
  refine ⟨i.word, rfl, ?_⟩
  cases i with
  | add | mul | lt | eq | jt | jf | inp | out | arb =>
    simp only [Instr.word, Instr.operands, modeWeights, List.getElem?_cons_zero, List.getElem?_cons_succ,
      List.getElem?_nil, Option.map_some, Option.map_none, Option.getD_some, Option.getD_none]
    ring
  | hlt => rfl

/-- Settles O9: each word is run through the decoder. -/
theorem writtenOutWordsDecode : Obligations.WrittenOutWordsDecode := by
  unfold Obligations.WrittenOutWordsDecode
  decide

end Sys2Proof

namespace Sys2Proof

/-! ## Rejected words (40_pipeline.md R99, R100) -/

namespace Mode

theorem ofDigit?_eq_none {d : Int} : ofDigit? d = none ↔ d ∉ ([0, 1, 2] : List Int) := by
  unfold ofDigit?
  split_ifs <;> simp_all

theorem exists_ofDigit? {d : Int} (h : d ∈ ([0, 1, 2] : List Int)) : ∃ m, ofDigit? d = some m :=
  Option.ne_none_iff_exists'.1 fun hn => ofDigit?_eq_none.1 hn h

end Mode

/-- The first illegal digit among those of parameters `i` to `i + n - 1` is the one reported (R99). -/
theorem decodeModes_of_first_illegal {w : Int} {i n k : Nat} (hi : i ≤ k) (hk : k < i + n)
    (legal : ∀ j, i ≤ j → j < k → modeField w j ∈ ([0, 1, 2] : List Int))
    (illegal : modeField w k ∉ ([0, 1, 2] : List Int)) :
    decodeModes w i n = .error (.invalidParameterMode k (modeField w k)) := by
  induction n generalizing i with
  | zero => omega
  | succ n ih =>
    rcases hi.eq_or_lt with rfl | hlt
    · simp only [decodeModes, Mode.ofDigit?_eq_none.2 illegal]
    · obtain ⟨m, hm⟩ := Mode.exists_ofDigit? (legal i le_rfl hlt)
      simp only [decodeModes, hm, ih hlt (by omega) fun j hj => legal j (by omega)]

theorem decodeModes_of_legal {w : Int} {i n : Nat}
    (legal : ∀ j, i ≤ j → j < i + n → modeField w j ∈ ([0, 1, 2] : List Int)) : ∃ ms, decodeModes w i n = .ok ms := by
  induction n generalizing i with
  | zero => exact ⟨[], rfl⟩
  | succ n ih =>
    obtain ⟨m, hm⟩ := Mode.exists_ofDigit? (legal i le_rfl (by omega))
    obtain ⟨ms, hms⟩ := ih (i := i + 1) fun j hj hlt => legal j (by omega) (by omega)
    exact ⟨m :: ms, decodeModes_cons (Mode.ofDigit?_eq_some.1 hm) hms⟩

theorem Opcode.wparam_le_arity (op : Opcode) : op.wparam ≤ op.arity := by
  cases op <;> decide

/-- A parameter whose digit is the number of a mode has that mode in the header (R79, R80). -/
theorem Header.mode_of_modeField {w : Int} {op : Opcode} {ms : List Mode} {n k : Nat} {m : Mode}
    (hms : decodeModes w 1 n = .ok ms) (hk : 1 ≤ k) (hn : k ≤ n) (hd : modeField w k = m.number) :
    (Header.mk op ms).mode k = m := by
  have hlt : k - 1 < ms.length := by
    rw [decodeModes_length hms]
    omega
  have hdigit := decodeModes_digit hms (List.getElem?_eq_getElem hlt)
  rw [show 1 + (k - 1) = k by omega, hd, Mode.ofDigit?_eq_some.2 rfl] at hdigit
  rw [Header.mode, List.getD_eq_getElem _ _ hlt]
  exact (Option.some.inj hdigit).symm

theorem decodeHeader_of_modes_error {w : Cell} {op : Opcode} {e : DecodeFault}
    (hop : Opcode.ofNumber? (opcodeField w) = some op) (hms : decodeModes w 1 op.arity = .error e) :
    decodeHeader w = .error e := by
  simp only [decodeHeader, hop, hms]

theorem decodeHeader_of_immediate_target {w : Cell} {op : Opcode} {ms : List Mode}
    (hop : Opcode.ofNumber? (opcodeField w) = some op) (hms : decodeModes w 1 op.arity = .ok ms)
    (hw : op.wparam ≠ 0) (hm : (Header.mk op ms).mode op.wparam = .immediate) :
    decodeHeader w = .error (.invalidWriteTarget op.wparam) := by
  simp only [decodeHeader, hop, hms]
  exact if_pos ⟨hw, hm⟩

/-- Settles O7: DECODE looks at the modes in parameter order and stops at the first illegal one. -/
theorem firstIllegalModeDigitIsReported : Obligations.FirstIllegalModeDigitIsReported := by
  intro w op i hop hi hn legal illegal
  exact decodeHeader_of_modes_error hop (decodeModes_of_first_illegal hi (by omega) legal illegal)

/-- Settles O8: the write parameter's mode is that of its digit, and its check is the last of DECODE. -/
theorem immediateWriteTargetIsRejected : Obligations.ImmediateWriteTargetIsRejected := by
  intro w op hop hw legal himm
  obtain ⟨ms, hms⟩ := decodeModes_of_legal (w := w) (i := 1) (n := op.arity) fun j hj hlt => legal j hj (by omega)
  exact decodeHeader_of_immediate_target hop hms hw
    (Header.mode_of_modeField hms (Nat.one_le_iff_ne_zero.2 hw) op.wparam_le_arity himm)

/-- The operands of a decoded instruction have the modes of its header (R79). -/
theorem Header.instr_modes (h : Header) (raws : List Cell) (hl : h.modes.length = h.op.arity) :
    (h.instr raws).operands.map Operand.mode = h.modes := by
  refine List.ext_getElem (by simp [instr_operands, hl]) fun k _ hk => ?_
  simp [instr_operands, Header.mode, List.getElem?_eq_getElem hk]

/-- The instructions with a write parameter are the four of format F3, and IN (R100). -/
theorem Instr.writeParam_cases {i : Instr} {j : Nat} {w : Operand} (h : i.writeParam = some (j, w)) :
    (∃ a b, j = 3 ∧ i ∈ [Instr.add a b w, .mul a b w, .lt a b w, .eq a b w]) ∨ (j = 1 ∧ i = .inp w) := by
  cases i with
  | add a b d | mul a b d | lt a b d | eq a b d =>
    cases h
    exact .inl ⟨a, b, rfl, by simp⟩
  | inp d =>
    cases h
    exact .inr ⟨rfl, rfl⟩
  | out _ | jt _ _ | jf _ _ | arb _ | hlt => cases h

namespace Machine

/-! ## Operands by mode (40_pipeline.md R102 to R105) -/

section Operands
variable {cfg : Config} {p : Processor} {i j : Nat} {o : Operand}

theorem memRead_of_legal {m : Memory} {a : Int} (h : legalAddr cfg a) :
    memRead cfg m i a = .ok (Memory.read m a.toNat) :=
  memRead_eq_ok.2 ⟨h, rfl⟩

theorem memRead_of_illegal {m : Memory} {a : Int} (h : ¬ legalAddr cfg a) :
    memRead cfg m i a = .error ⟨.memoryFault, i, some a⟩ :=
  memRead_eq_error.2 ⟨h, rfl⟩

theorem writeAddr_of_illegal {a : Int} (ha : p.targetAddr o = some a) (h : ¬ legalAddr cfg a) :
    p.writeAddr cfg j o = .error ⟨.memoryFault, j, some a⟩ := by
  rw [Processor.writeAddr, ha]
  exact if_neg h

theorem checkTarget_of_immediate (h : o.mode = .immediate) : checkTarget j o = .error ⟨.invalidWriteTarget, j, none⟩ :=
  if_pos h

end Operands

/-- Settles O13: Position and Relative are a `MemRead` at their address. -/
theorem readOperandFollowsItsMode : Obligations.ReadOperandFollowsItsMode := fun _ _ _ _ =>
  ⟨rfl, memRead_of_legal, memRead_of_illegal, memRead_of_legal, memRead_of_illegal⟩

/-- Settles O14: the address is that of `targetAddr`, which looks at rb and not at memory. -/
theorem writeAddressFollowsItsMode : Obligations.WriteAddressFollowsItsMode := fun _ _ _ _ =>
  ⟨fun h => writeAddr_eq_ok.2 ⟨rfl, h⟩, writeAddr_of_illegal rfl, fun h => writeAddr_eq_ok.2 ⟨rfl, h⟩,
    writeAddr_of_illegal rfl, fun _ _ => rfl⟩

/-! ## Faults of the operands (40_pipeline.md R100, R106) -/

section OperandFaults
variable {alu : Config → Cell → Cell → Except Raise Cell} {a b dst v c t : Operand} {taken : Cell → Bool}
  {cfg : Config} {p : Processor} {x y : Cell} {r : Raise}

theorem binaryEffect_of_immediate (ht : dst.mode = .immediate) :
    binaryEffect alu a b dst cfg p = .error ⟨.invalidWriteTarget, 3, none⟩ := by
  simp [binaryEffect, checkTarget_of_immediate ht, bind, Except.bind]

theorem binaryEffect_first_read_fault (ht : dst.isTarget) (hx : p.readOperand cfg 1 a = .error r) :
    binaryEffect alu a b dst cfg p = .error r := by
  simp [binaryEffect, checkTarget_eq_ok.2 ht, hx, bind, Except.bind]

theorem binaryEffect_second_read_fault (ht : dst.isTarget) (hx : p.readOperand cfg 1 a = .ok x)
    (hy : p.readOperand cfg 2 b = .error r) : binaryEffect alu a b dst cfg p = .error r := by
  simp [binaryEffect, checkTarget_eq_ok.2 ht, hx, hy, bind, Except.bind]

theorem binaryEffect_target_fault (ht : dst.isTarget) (hx : p.readOperand cfg 1 a = .ok x)
    (hy : p.readOperand cfg 2 b = .ok y) (hd : p.writeAddr cfg 3 dst = .error r) :
    binaryEffect alu a b dst cfg p = .error r := by
  simp [binaryEffect, checkTarget_eq_ok.2 ht, hx, hy, hd, bind, Except.bind]

theorem inputEffect_of_immediate (ht : dst.mode = .immediate) :
    inputEffect dst cfg p = .error ⟨.invalidWriteTarget, 1, none⟩ := by
  simp [inputEffect, checkTarget_of_immediate ht, bind, Except.bind]

theorem outputEffect_read_fault (hx : p.readOperand cfg 1 v = .error r) : outputEffect v cfg p = .error r := by
  simp [outputEffect, hx, bind, Except.bind]

theorem relativeBaseEffect_read_fault (hx : p.readOperand cfg 1 v = .error r) :
    relativeBaseEffect v cfg p = .error r := by
  simp [relativeBaseEffect, hx, bind, Except.bind]

theorem jumpEffect_read_fault (hx : p.readOperand cfg 1 c = .error r) : jumpEffect taken c t cfg p = .error r := by
  simp [jumpEffect, hx, bind, Except.bind]

end OperandFaults

theorem exec_of_effect_error {s : State} {p : Processor} {i : Instr} {r : Raise} (hc : s.current = some p)
    (h : effect i s.cfg p = .error r) : exec i s = .next (s.takeFault p r) := by
  rw [exec_of_current hc, h, State.finish_error]

/-- ADD, MUL, LT and EQ differ in the ALU's operation alone. -/
theorem effect_eq_binaryEffect {i : Instr} {a b dst : Operand}
    (h : i ∈ [Instr.add a b dst, .mul a b dst, .lt a b dst, .eq a b dst]) :
    ∃ alu, effect i = binaryEffect alu a b dst := by
  simp only [List.mem_cons, List.not_mem_nil, or_false] at h
  rcases h with rfl | rfl | rfl | rfl <;> exact ⟨_, rfl⟩

/-- Settles O25: format F3 evaluates its operands in order, and the other four read the first before anything else. -/
theorem operandFaultsAreReportedInOrder : Obligations.OperandFaultsAreReportedInOrder := by
  intro s p a b dst i r hc ht
  refine ⟨fun hi hx => exec_of_effect_error hc ?_, fun hi => ?_⟩
  · rcases List.mem_append.1 (show i ∈ [Instr.add a b dst, .mul a b dst, .lt a b dst, .eq a b dst] ++
      [.out a, .arb a, .jt a b, .jf a b] from hi) with hi | hi
    · obtain ⟨alu, he⟩ := effect_eq_binaryEffect hi
      exact he ▸ binaryEffect_first_read_fault ht hx
    · simp only [List.mem_cons, List.not_mem_nil, or_false] at hi
      rcases hi with rfl | rfl | rfl | rfl
      · exact outputEffect_read_fault hx
      · exact relativeBaseEffect_read_fault hx
      · exact jumpEffect_read_fault hx
      · exact jumpEffect_read_fault hx
  · obtain ⟨alu, he⟩ := effect_eq_binaryEffect hi
    exact ⟨fun x hx hy => exec_of_effect_error hc (he ▸ binaryEffect_second_read_fault ht hx hy),
      fun x y hx hy hd => exec_of_effect_error hc (he ▸ binaryEffect_target_fault ht hx hy hd)⟩

/-- Settles O26: each of the five instructions that store checks its target first. -/
theorem illFormedInstructionsTakeInvalidWriteTarget : Obligations.IllFormedInstructionsTakeInvalidWriteTarget := by
  intro s p i j w hc hw hm
  refine exec_of_effect_error hc ?_
  obtain ⟨a, b, rfl, hi⟩ | ⟨rfl, rfl⟩ := Instr.writeParam_cases hw
  · obtain ⟨alu, he⟩ := effect_eq_binaryEffect hi
    exact he ▸ binaryEffect_of_immediate hm
  · exact inputEffect_of_immediate hm

/-! ## FETCH, DECODE and PARAMETER FETCH (40_pipeline.md R96 to R101) -/

theorem Status.not_runs {st : Status} : ¬ st.Runs ↔ st = .halted ∨ st = .faulted := by
  cases st <;> simp

section Fetch
variable {cfg : Config} {s : State} {p : Processor}

theorem memRead_ip_of_lt {i : Nat} (h : p.ip < cfg.memCapacity) :
    memRead cfg p.mem i p.ip = .ok (Memory.read p.mem p.ip) :=
  memRead_of_legal ⟨by omega, by omega⟩

theorem memRead_ip_of_ge {i : Nat} (h : cfg.memCapacity ≤ p.ip) :
    memRead cfg p.mem i p.ip = .error ⟨.memoryFault, i, some p.ip⟩ :=
  memRead_of_illegal fun hl => absurd hl.2 (by omega)

theorem fetch_of_ip_ge (h : cfg.memCapacity ≤ p.ip) : p.fetch cfg = .error ⟨.memoryFault, 0, some p.ip⟩ := by
  simp only [Processor.fetch, memRead_ip_of_ge h]

theorem fetchedWord_of_lt (h : p.ip < cfg.memCapacity) : p.fetchedWord cfg = some (Memory.read p.mem p.ip) := by
  simp only [Processor.fetchedWord, memRead_ip_of_lt h]

theorem fetchedWord_of_ge (h : cfg.memCapacity ≤ p.ip) : p.fetchedWord cfg = none := by
  simp only [Processor.fetchedWord, memRead_ip_of_ge h]

/-- Parameter cells are fetched in order, so the first beyond the capacity is the one reported (R101). -/
theorem fetchParams_of_first_beyond {i n k : Nat} (hi : i ≤ k) (hk : k < i + n) (hb : p.ip + k = cfg.memCapacity) :
    fetchParams cfg p i n = .error ⟨.memoryFault, k, some ((p.ip + k : Nat) : Int)⟩ := by
  induction n generalizing i with
  | zero => omega
  | succ n ih =>
    rcases hi.eq_or_lt with rfl | hlt
    · have hr := memRead_of_illegal (cfg := cfg) (m := p.mem) (i := i) (a := ((p.ip + i : Nat) : Int))
        fun hl => absurd hl.2 (by omega)
      simp only [fetchParams, hr]
    · have hr := memRead_of_legal (cfg := cfg) (m := p.mem) (i := i) (a := ((p.ip + i : Nat) : Int))
        ⟨by omega, by omega⟩
      simp only [fetchParams, hr, ih hlt (by omega)]

theorem fetch_of_fetchParams_error {h : Header} {r : Raise} (hl : p.ip < cfg.memCapacity)
    (hd : decodeHeader (Memory.read p.mem p.ip) = .ok h) (hp : fetchParams cfg p 1 h.op.arity = .error r) :
    p.fetch cfg = .error r := by
  simp only [Processor.fetch, memRead_ip_of_lt hl, hd, hp]

/-- A step on a word the decoder rejects reports that fault, with the word (R98 to R100). -/
theorem stepCurrent_of_rejected {e : DecodeFault} (hc : s.current = some p) (hs : p.status.Runs)
    (hl : p.ip < s.cfg.memCapacity) (hd : decodeHeader (Memory.read p.mem p.ip) = .error e) :
    ∃ s', s.stepCurrent = .next s' ∧ s'.outcome = some (.fault ⟨(raiseOfDecode e).code, some p.ip,
      some (Memory.read p.mem p.ip), (raiseOfDecode e).param, (raiseOfDecode e).detail⟩) := by
  refine ⟨_, State.stepCurrent_of_fetch_error hc hs (fetch_of_decodeHeader_error hd hl), ?_⟩
  rw [State.takeFault_outcome, Processor.faultRecord, fetchedWord_of_lt hl]

end Fetch

/-- Settles O34: Halted and Faulted are the statuses the gate holds back. -/
theorem onlyRunningAndBlockedGoOnToFetch : Obligations.OnlyRunningAndBlockedGoOnToFetch := by
  intro s p hc
  exact ⟨fun hs => State.stepCurrent_of_stopped hc (Status.not_runs.2 hs),
    fun hs => ⟨fun r => State.stepCurrent_of_fetch_error hc hs, fun i => State.stepCurrent_of_fetch hc hs⟩⟩

/-- Settles O35: FETCH reads the word at ip, DECODE its header, and beyond the capacity there is no word. -/
theorem fetchReadsTheWordAtIp : Obligations.FetchReadsTheWordAtIp := by
  intro s p hc
  refine ⟨fun hl => ⟨fun e he => fetch_of_decodeHeader_error he hl, fun i hf => ?_⟩,
    fun hge => ⟨fetch_of_ip_ge hge, ?_⟩⟩
  · obtain ⟨h, hd, -, rfl⟩ := fetch_eq_ok.1 hf
    obtain ⟨-, hms, -⟩ := decodeHeader_eq_ok.1 hd
    exact ⟨h, hd, h.instr_opcode _, h.instr_modes _ (decodeModes_length hms)⟩
  · intro hs
    rw [State.stepCurrent_of_fetch_error hc hs (fetch_of_ip_ge hge), State.takeFault, Processor.faultRecord,
      fetchedWord_of_ge hge]

/-- Settles O36: the word at ip is accepted, and PARAMETER FETCH takes the fault before any operand is read. -/
theorem parameterBeyondTheCapacityFaults : Obligations.ParameterBeyondTheCapacityFaults := by
  intro s p h k hc hs hd hk hn hb
  refine State.stepCurrent_of_fetch_error hc hs (fetch_of_fetchParams_error (by omega) hd ?_)
  exact fetchParams_of_first_beyond hk (by omega) hb

/-- Settles O37: one kind of rejection after the other. -/
theorem rejectedWordTakesItsFault : Obligations.RejectedWordTakesItsFault := by
  rintro s p w hc hs hl rfl
  exact ⟨stepCurrent_of_rejected hc hs hl, fun _ _ => stepCurrent_of_rejected hc hs hl,
    fun _ => stepCurrent_of_rejected hc hs hl⟩

/-- Settles O32: in single-Processor mode the step of the block is that of its Processor, whose fetch gives the
instruction decoded. -/
theorem stepRunsTheDecodedInstruction : Obligations.StepRunsTheDecodedInstruction := by
  intro s p hr hc
  refine ⟨step_single hr, fun i rest hs hdec hl => ?_⟩
  rw [step_single hr, State.stepCurrent_of_fetch hc hs (fetch_of_decode hdec hl)]

end Machine
end Sys2Proof

namespace Sys2Proof.Machine

/-! ## One step: what it writes, and the status it leaves (40_pipeline.md R110, R111) -/

section Completes
variable {i : Instr} {cfg : Config} {p p' : Processor} {o : StepOutcome}

/-- An instruction that stores reports no value: it is neither OUT nor a Starved IN. -/
theorem effect_outcome_of_mem_ne (h : effect i cfg p = .ok (p', o)) (hm : p'.mem ≠ p.mem) : o = .progress none := by
  rcases effect_cases h with ⟨d, v, -, -, rfl, rfl⟩ | ⟨w, -, -, -, rfl⟩ | ⟨w, d, v, q, -, rfl, -, -, rfl⟩ |
    ⟨w, x, -, -, -, rfl⟩ | ⟨n, -, rfl, -, rfl⟩ | ⟨w, r, -, rfl, rfl⟩ | ⟨-, rfl, rfl⟩
  · rfl
  · exact absurd rfl hm
  · rfl
  · exact absurd rfl hm
  all_goals rfl

/-- A cell that reads otherwise after an instruction is the one its write parameter names. -/
theorem effect_of_read_ne (h : effect i cfg p = .ok (p', o)) {k : Nat}
    (hk : Memory.read p'.mem k ≠ Memory.read p.mem k) :
    ∃ j w, i.writeParam = some (j, w) ∧ p.targetAddr w = some (k : Int) ∧ o = .progress none := by
  have hm : p'.mem ≠ p.mem := fun hm => hk (by rw [hm])
  obtain hm' | ⟨j, w, d, v, hw, hd, -⟩ := effect_mem h
  · exact absurd hm' hm
  · obtain ⟨ht, -⟩ := writeAddr_eq_ok.1 hd
    obtain rfl : (k : Int) = d := by_contra fun hne => hk ((Processor.Exec.completes h).read_other hw ht hne)
    exact ⟨j, w, hw, ht, effect_outcome_of_mem_ne h hm⟩

theorem effect_inQ (h : effect i cfg p = .ok (p', o)) : p'.inQ = p.inQ ∨ p'.inQ = p.inQ.tail := by
  by_cases hi : i.opcode = .inp
  · obtain ⟨w, rfl⟩ := Instr.opcode_eq_inp.1 hi
    obtain ⟨d, -, ⟨-, rfl, -⟩ | ⟨v, q, hq, rfl, -⟩⟩ := inputEffect_eq_ok h
    · exact .inl rfl
    · exact .inr (by rw [hq, List.tail_cons])
  · exact .inl ((effect_frame h).inQ hi)

theorem effect_outQ (h : effect i cfg p = .ok (p', o)) : p'.outQ = p.outQ ∨ ∃ v, p'.outQ = p.outQ ++ [v] := by
  by_cases hi : i.opcode = .out
  · obtain ⟨w, rfl⟩ := Instr.opcode_eq_out.1 hi
    obtain ⟨x, -, -, rfl, -⟩ := outputEffect_eq_ok h
    exact .inr ⟨x, rfl⟩
  · exact .inl ((effect_frame h).output hi).2

/-- A fetched instruction that completes is Starved and leaves Blocked, or is HLT and leaves Halted, or leaves Running:
only an IN runs on a Blocked Processor (R111, R174). -/
theorem Processor.WF.effect_status (hp : p.WF cfg) (hs : p.status.Runs) (hf : p.fetch cfg = .ok i)
    (h : effect i cfg p = .ok (p', o)) :
    (o = .starved ∧ p'.status = .blocked ∧ i ≠ .hlt) ∨
      ∃ out, o = .progress out ∧ ((p'.status = .halted ∧ i = .hlt) ∨ (p'.status = .running ∧ i ≠ .hlt)) := by
  have running : (∀ w, i ≠ .inp w) → p.status = .running := by
    intro hi
    refine hs.resolve_right fun hb => ?_
    obtain ⟨w, -, hw, -⟩ := hp.blocked_input hb
    exact hi w (Except.ok.inj (hf.symm.trans hw))
  rcases effect_cases h with ⟨d, v, -, hl, rfl, rfl⟩ | ⟨w, rfl, rfl, -, rfl⟩ | ⟨w, d, v, q, rfl, rfl, -, -, rfl⟩ |
    ⟨w, x, rfl, rfl, -, rfl⟩ | ⟨n, hl, rfl, -, rfl⟩ | ⟨w, r, rfl, rfl, rfl⟩ | ⟨rfl, rfl, rfl⟩
  · exact .inr ⟨_, rfl, .inr ⟨running (by rintro w rfl; cases hl), by rintro rfl; cases hl⟩⟩
  · exact .inl ⟨rfl, rfl, by simp⟩
  · exact .inr ⟨_, rfl, .inr ⟨rfl, by simp⟩⟩
  · exact .inr ⟨_, rfl, .inr ⟨running (by simp), by simp⟩⟩
  · exact .inr ⟨_, rfl, .inr ⟨running (by rintro w rfl; cases hl), by rintro rfl; cases hl⟩⟩
  · exact .inr ⟨_, rfl, .inr ⟨running (by simp), by simp⟩⟩
  · exact .inr ⟨_, rfl, .inl ⟨rfl, rfl⟩⟩

end Completes

/-- Settles O39: an idle step and a fault change no memory and no queue, and an instruction stores in its target. -/
theorem stepWritesAtMostOneOfEach : Obligations.StepWritesAtMostOneOfEach := by
  intro s s' h
  obtain ⟨p, hc, ⟨-, rfl⟩ | ⟨-, r, -, rfl⟩ | ⟨-, i, p', o, hf, he, rfl⟩⟩ := State.stepCurrent_cases h
  · exact ⟨p, p, hc, hc, fun k hk => absurd rfl hk, .inl rfl, .inl rfl⟩
  · exact ⟨p, _, hc, State.current_commit hc, fun k hk => absurd rfl hk, .inl rfl, .inl rfl⟩
  · refine ⟨p, p', hc, State.current_commit hc, fun k hk => ?_, effect_inQ he, effect_outQ he⟩
    obtain ⟨j, w, hw, ht, ho⟩ := effect_of_read_ne he hk
    exact ⟨i, j, w, hf, hw, ht, congrArg some ho⟩

/-- HLT cannot fault (R147). -/
theorem fetch_ne_hlt_of_raise {cfg : Config} {p : Processor} {r : Raise}
    (h : p.fetch cfg = .error r ∨ ∃ i, p.fetch cfg = .ok i ∧ effect i cfg p = .error r) : p.fetch cfg ≠ .ok .hlt := by
  intro hh
  obtain hf | ⟨i, hf, he⟩ := h
  · cases hf.symm.trans hh
  · cases hf.symm.trans hh
    cases he

/-- Settles O40: the three ends of a step, each with its status. -/
theorem outcomeTellsTheStatus : Obligations.OutcomeTellsTheStatus := by
  intro s s' p hwf hc h
  obtain ⟨q, hq, hstep⟩ := State.stepCurrent_cases h
  cases hc.symm.trans hq
  obtain ⟨hs, rfl⟩ | ⟨hs, r, hr, rfl⟩ | ⟨hs, i, p', o, hf, he, rfl⟩ := hstep
  · refine ⟨p, .idle, hc, rfl, ?_⟩
    obtain hs | hs := Status.not_runs.1 hs <;> simp [hs]
  · refine ⟨_, _, State.current_commit hc, rfl, ?_⟩
    have hne := fetch_ne_hlt_of_raise hr
    obtain hs | hs := hs <;> simp [hs, hne]
  · refine ⟨p', o, State.current_commit hc, rfl, ?_⟩
    have stays : p.status ≠ .halted ∧ p.status ≠ .faulted := by rcases hs with hs | hs <;> simp [hs]
    obtain ⟨rfl, hp', hi⟩ | ⟨out, rfl, ⟨hp', rfl⟩ | ⟨hp', hi⟩⟩ :=
      (hwf.procs_wf p (State.current_mem hc)).effect_status hs hf he
    · simp [hp', hf, hi, stays]
    · simp [hp', hf, stays]
    · simp [hp', hf, hi, stays]

end Sys2Proof.Machine

namespace Sys2Proof.Machine

/-! ## What a step depends on (40_pipeline.md R113) -/

/-- The two Processors agree on M, ip, rb, status and InQ, the state R113 names. -/
structure Processor.Agree (p q : Processor) : Prop where
  mem : p.mem = q.mem
  ip : p.ip = q.ip
  rb : p.rb = q.rb
  status : p.status = q.status
  inQ : p.inQ = q.inQ

/-- `p` with another fault record, last_output and OutQ: every Processor that agrees with `p` is of this form. -/
def Processor.withOutput (p : Processor) (f : Option FaultRecord) (l : Option Cell) (out : List Cell) : Processor :=
  { p with fault := f, lastOutput := l, outQ := out }

theorem Processor.Agree.exists_withOutput {p q : Processor} (h : p.Agree q) :
    ∃ f l out, q = p.withOutput f l out := by
  obtain ⟨hm, hi, hr, hs, hq⟩ := h
  exact ⟨q.fault, q.lastOutput, q.outQ, by simp only [withOutput, hm, hi, hr, hs, hq]⟩

section WithOutput
variable (cfg : Config) (p : Processor) (f : Option FaultRecord) (l : Option Cell) (out : List Cell)

theorem agree_withOutput : p.Agree (p.withOutput f l out) := ⟨rfl, rfl, rfl, rfl, rfl⟩

@[simp] theorem readOperand_withOutput (i : Nat) (o : Operand) :
    (p.withOutput f l out).readOperand cfg i o = p.readOperand cfg i o := rfl

@[simp] theorem withOutput_outQ : (p.withOutput f l out).outQ = out := rfl

/-- An instruction other than OUT does the same whatever the fault record, last_output and OutQ are. -/
theorem effect_withOutput {i : Instr} (hi : i.opcode ≠ .out) :
    effect i cfg (p.withOutput f l out) = (fun e => (e.1.withOutput f l out, e.2)) <$> effect i cfg p := by
  have binary : ∀ {alu a b dst}, binaryEffect alu a b dst cfg (p.withOutput f l out) =
      (fun e => (e.1.withOutput f l out, e.2)) <$> binaryEffect alu a b dst cfg p := by
    intro alu a b dst
    simp only [binaryEffect, map_bind]
    rfl
  have jump : ∀ {taken c t}, jumpEffect taken c t cfg (p.withOutput f l out) =
      (fun e => (e.1.withOutput f l out, e.2)) <$> jumpEffect taken c t cfg p := by
    intro taken c t
    simp only [jumpEffect, map_bind, apply_ite]
    rfl
  cases i with
  | add | mul => exact binary
  | lt => exact binary (alu := fun _ x y => .ok (aluLt x y))
  | eq => exact binary (alu := fun _ x y => .ok (aluEq x y))
  | jt | jf => exact jump
  | inp dst =>
    simp only [effect, inputEffect, map_bind]
    rw [show (p.withOutput f l out).inQ = p.inQ from rfl]
    cases p.inQ with
    | nil => rfl
    | cons v q =>
      simp only [map_bind]
      rfl
  | arb v =>
    simp only [effect, relativeBaseEffect, map_bind]
    rfl
  | hlt => rfl
  | out => exact absurd rfl hi

end WithOutput

/-- The effects of `p` and `q` raise the same fault, or complete with the same outcome, in agreement, and push the same
onto the two OutQs. -/
inductive EffectsAgree (p q : Processor) : Effect → Effect → Prop where
  | faults (r : Raise) : EffectsAgree p q (.error r) (.error r)
  | completes {p' q' : Processor} {o : StepOutcome} (agree : p'.Agree q') (pushed : List Cell)
      (left : p'.outQ = p.outQ ++ pushed) (right : q'.outQ = q.outQ ++ pushed) :
      EffectsAgree p q (.ok (p', o)) (.ok (q', o))

/-- What follows the steps of `p` and `q` agrees: the same outcome, Processors in agreement, the same pushed. -/
def State.AgreeAfter (s t : State) (p q : Processor) : Prop :=
  s.outcome = t.outcome ∧ ∃ p' q' pushed, s.current = some p' ∧ t.current = some q' ∧ p'.Agree q' ∧
    p'.outQ = p.outQ ++ pushed ∧ q'.outQ = q.outQ ++ pushed

/-- A step that the gate lets through, as an effect: the fetch, then the instruction (R95). -/
def Processor.stepEffect (cfg : Config) (p : Processor) : Effect := do effect (← p.fetch cfg) cfg p

theorem stepCurrent_of_runs {s : State} {p : Processor} (hc : s.current = some p) (hs : p.status.Runs) :
    s.stepCurrent = .next (s.finish p (p.stepEffect s.cfg)) := by
  cases hf : p.fetch s.cfg with
  | error r =>
    rw [State.stepCurrent_of_fetch_error hc hs hf, Processor.stepEffect, hf]
    rfl
  | ok i =>
    rw [State.stepCurrent_of_fetch hc hs hf, exec_of_current hc, Processor.stepEffect, hf]
    rfl

section Agree
variable {cfg : Config} {p q : Processor}

theorem effect_agree (i : Instr) (h : p.Agree q) (hfull : queueFull cfg p.outQ = queueFull cfg q.outQ) :
    EffectsAgree p q (effect i cfg p) (effect i cfg q) := by
  obtain ⟨f, l, out, rfl⟩ := h.exists_withOutput
  by_cases hi : i.opcode = .out
  · obtain ⟨v, rfl⟩ := Instr.opcode_eq_out.1 hi
    rw [effect]
    cases hx : p.readOperand cfg 1 v with
    | error r =>
      rw [outputEffect_read_fault hx, outputEffect_read_fault ((readOperand_withOutput ..).trans hx)]
      exact .faults r
    | ok x =>
      have hx' := (readOperand_withOutput cfg p f l out 1 v).trans hx
      cases hq : queueFull cfg p.outQ with
      | true =>
        rw [outputEffect_full hx hq, outputEffect_full hx' (hfull ▸ hq)]
        exact .faults _
      | false =>
        rw [outputEffect_of hx hq, outputEffect_of hx' (hfull ▸ hq)]
        exact .completes ⟨rfl, rfl, rfl, rfl, rfl⟩ [x] rfl rfl
  · rw [effect_withOutput cfg p f l out hi]
    cases he : effect i cfg p with
    | error r => exact .faults r
    | ok e =>
      exact .completes (agree_withOutput e.1 f l out) [] (by rw [((effect_frame he).output hi).2, List.append_nil])
        (by simp)

theorem stepEffect_agree (h : p.Agree q) (hfull : queueFull cfg p.outQ = queueFull cfg q.outQ) :
    EffectsAgree p q (p.stepEffect cfg) (q.stepEffect cfg) := by
  rw [Processor.stepEffect, Processor.stepEffect, ← fetch_congr h.mem h.ip]
  cases p.fetch cfg with
  | error r => exact .faults r
  | ok i => exact effect_agree i h hfull

theorem faultRecord_congr (h : p.Agree q) (r : Raise) : p.faultRecord cfg r = q.faultRecord cfg r := by
  simp only [Processor.faultRecord, Processor.fetchedWord, h.mem, h.ip]

theorem finish_agree {s t : State} {e e' : Effect} (hcfg : s.cfg = t.cfg) (hp : s.current = some p)
    (hq : t.current = some q) (h : p.Agree q) (he : EffectsAgree p q e e') :
    (s.finish p e).AgreeAfter (t.finish q e') p q := by
  cases he with
  | faults r =>
    refine ⟨?_, _, _, [], State.current_commit hp, State.current_commit hq, ⟨h.mem, h.ip, h.rb, rfl, h.inQ⟩, by simp,
      by simp⟩
    rw [State.finish_error, State.finish_error, State.takeFault_outcome, State.takeFault_outcome, ← hcfg,
      faultRecord_congr h]
  | completes agree pushed left right =>
    exact ⟨rfl, _, _, pushed, State.current_commit hp, State.current_commit hq, agree, left, right⟩

end Agree

/-- Settles O43: fetch and instruction look at the named state alone, but for whether OutQ is full. -/
theorem stepDependsOnlyOnTheNamedState : Obligations.StepDependsOnlyOnTheNamedState := by
  intro s t s' t' p q hcfg hfull hp hq hm hi hr hs hin hstep htstep
  have agree : p.Agree q := ⟨hm, hi, hr, hs, hin⟩
  have after : s'.AgreeAfter t' p q := by
    by_cases hruns : p.status.Runs
    · rw [stepCurrent_of_runs hp hruns] at hstep
      rw [stepCurrent_of_runs hq (hs ▸ hruns), ← hcfg] at htstep
      cases hstep
      cases htstep
      exact finish_agree hcfg hp hq agree (stepEffect_agree agree hfull)
    · rw [State.stepCurrent_of_stopped hp hruns] at hstep
      rw [State.stepCurrent_of_stopped hq (hs ▸ hruns)] at htstep
      cases hstep
      cases htstep
      exact ⟨rfl, p, q, [], hp, hq, agree, by simp, by simp⟩
  obtain ⟨ho, p', q', pushed, hp', hq', ⟨hm', hi', hr', hs', hin'⟩, left, right⟩ := after
  exact ⟨ho, p', q', hp', hq', hm', hi', hr', hs', hin', pushed, left, right⟩

end Sys2Proof.Machine

namespace Sys2Proof.Machine

/-! ## Runs to the end of a single Processor (40_pipeline.md R112, 60_exceptions.md R190) -/

theorem core_run_succ {M : Host.Core} {k : Nat} {s s' : M.State} :
    M.run (k + 1) s = .next s' ↔ ∃ s₁, M.step s = .next s₁ ∧ M.run k s₁ = .next s' := by
  rw [Host.Core.run]
  cases M.step s <;> simp

theorem haltReturn_eq_some {p : Processor} {r : HaltReturn} :
    p.haltReturn = some r ↔ (p.status = .halted ∧ r = .ok) ∨
      (p.status = .faulted ∧ ∃ f, p.fault = some f ∧ r = .fault f) := by
  unfold Processor.haltReturn
  cases p.status <;> simp [eq_comm]

/-- A Processor that has stopped has something to return (R25). -/
theorem Processor.WF.exists_haltReturn {cfg : Config} {p : Processor} (h : p.WF cfg)
    (hs : p.status = .halted ∨ p.status = .faulted) : ∃ r, p.haltReturn = some r := by
  obtain hs | hs := hs
  · exact ⟨.ok, haltReturn_eq_some.2 (.inl ⟨hs, rfl⟩)⟩
  · obtain ⟨f, hf⟩ := Option.isSome_iff_exists.1 (h.fault_iff.1 hs)
    exact ⟨.fault f, haltReturn_eq_some.2 (.inr ⟨hs, f, hf, rfl⟩)⟩

/-- `run_to_halt` returns at once, or makes a step and goes on with the bound less by one. -/
theorem runToHalt_eq_some {n : Nat} {s s' : State} {r : HaltReturn} :
    State.runToHalt n s = some (r, s') ↔ ∃ p, s.single = .ok p ∧
      ((p.haltReturn = some r ∧ s' = s) ∨
        (p.haltReturn = none ∧ ∃ m s₁, n = m + 1 ∧ step s = .next s₁ ∧ State.runToHalt m s₁ = some (r, s'))) := by
  rw [State.runToHalt.eq_def]
  cases hs : s.single with
  | error e => simp [hs]
  | ok p =>
    cases hr : p.haltReturn with
    | some r' => simp [hs, hr, eq_comm]
    | none =>
      cases n with
      | zero => simp [hs, hr]
      | succ n => cases hstep : step s <;> simp [hs, hr, hstep]

/-- The Processor in single-Processor mode that has stopped is the end of a run (R190). -/
theorem ended_of_haltReturn {s : State} {p : Processor} {r : HaltReturn} (hp : s.single = .ok p)
    (hr : p.haltReturn = some r) : s.Ended := by
  obtain ⟨hring, hc⟩ := State.single_eq_ok.1 hp
  rw [State.Ended, hring]
  refine ⟨p, hc, ?_⟩
  obtain ⟨hs, -⟩ | ⟨hs, -⟩ := haltReturn_eq_some.1 hr
  · exact .inl hs
  · exact .inr hs

/-- A run that returns within a bound has made so many steps, to a Processor that has stopped, and returns what that
Processor returns. -/
theorem runToHalt_reaches {n : Nat} {s s' : State} {r : HaltReturn} (h : State.runToHalt n s = some (r, s')) :
    (∃ k, k ≤ n ∧ Host.Core.run Sys2Proof.core k s = .next s') ∧ ∃ p, s'.single = .ok p ∧ p.haltReturn = some r := by
  induction n generalizing s with
  | zero =>
    obtain ⟨p, hp, ⟨hr, rfl⟩ | ⟨-, m, -, hm, -, -⟩⟩ := runToHalt_eq_some.1 h
    · exact ⟨⟨0, le_rfl, rfl⟩, p, hp, hr⟩
    · cases hm
  | succ n ih =>
    obtain ⟨p, hp, ⟨hr, rfl⟩ | ⟨-, m, s₁, hm, hstep, h'⟩⟩ := runToHalt_eq_some.1 h
    · exact ⟨⟨0, Nat.zero_le _, rfl⟩, p, hp, hr⟩
    · cases hm
      obtain ⟨⟨k, hk, hrun⟩, hstop⟩ := ih h'
      exact ⟨⟨k + 1, Nat.succ_le_succ hk, core_run_succ.2 ⟨s₁, hstep, hrun⟩⟩, hstop⟩

/-- A larger bound changes no answer. -/
theorem runToHalt_mono {n m : Nat} {s s' : State} {r : HaltReturn} (h : State.runToHalt n s = some (r, s'))
    (hnm : n ≤ m) : State.runToHalt m s = some (r, s') := by
  induction m generalizing n s with
  | zero => rwa [Nat.le_zero.1 hnm] at h
  | succ m ih =>
    obtain ⟨p, hp, stopped | ⟨hr, k, s₁, rfl, hstep, h'⟩⟩ := runToHalt_eq_some.1 h
    · exact runToHalt_eq_some.2 ⟨p, hp, .inl stopped⟩
    · exact runToHalt_eq_some.2 ⟨p, hp, .inr ⟨hr, m, s₁, rfl, hstep, ih h' (Nat.le_of_succ_le_succ hnm)⟩⟩

/-- From a well-formed machine `run_to_halt` returns within every bound that reaches an end of the run. -/
theorem runToHalt_of_ended {k n : Nat} {s s' : State} (hwf : s.WF) (hring : s.ring = none) (hk : k ≤ n)
    (hrun : Host.Core.run Sys2Proof.core k s = .next s') (hend : s'.Ended) :
    ∃ r, State.runToHalt n s = some r := by
  induction k generalizing n s with
  | zero =>
    cases hrun
    rw [State.Ended, hring] at hend
    obtain ⟨p, hc, hs⟩ := hend
    obtain ⟨r, hr⟩ := (hwf.procs_wf p (State.current_mem hc)).exists_haltReturn hs
    exact ⟨(r, s'), runToHalt_eq_some.2 ⟨p, State.single_eq_ok.2 ⟨hring, hc⟩, .inl ⟨hr, rfl⟩⟩⟩
  | succ k ih =>
    obtain ⟨s₁, hstep, hrun⟩ := core_run_succ.1 hrun
    obtain ⟨p, hc⟩ := State.exists_current hwf.cursor_lt
    have hp : s.single = .ok p := State.single_eq_ok.2 ⟨hring, hc⟩
    cases hr : p.haltReturn with
    | some r => exact ⟨(r, s), runToHalt_eq_some.2 ⟨p, hp, .inl ⟨hr, rfl⟩⟩⟩
    | none =>
      obtain ⟨m, rfl⟩ := Nat.exists_eq_add_of_le' (Nat.one_le_of_lt hk)
      have hring₁ : s₁.ring = none :=
        (State.stepCurrent_sameAround ((step_single hring).symm.trans hstep)).ring.trans hring
      obtain ⟨r, h⟩ := ih (everyStepKeepsTheMachineWellFormed s s₁ hwf hstep) hring₁ (Nat.le_of_succ_le_succ hk) hrun
      exact ⟨r, runToHalt_eq_some.2 ⟨p, hp, .inr ⟨hr, m, s₁, rfl, hstep, h⟩⟩⟩

/-- Settles O59: the run's recursion is that of the bound; conversely well-formed machines stay so, and one that has
stopped has something to return. -/
theorem runToHaltReturnsOnlyAtTheEnd : Obligations.RunToHaltReturnsOnlyAtTheEnd := by
  intro n s
  refine ⟨fun r s' h => ?_, fun hwf hring k s' hk hrun hend =>
    Option.isSome_iff_exists.2 (runToHalt_of_ended hwf hring hk hrun hend)⟩
  obtain ⟨reached, p, hp, hr⟩ := runToHalt_reaches h
  exact ⟨ended_of_haltReturn hp hr, fun m => runToHalt_mono h, reached, p, (State.single_eq_ok.1 hp).2,
    haltReturn_eq_some.1 hr⟩

end Sys2Proof.Machine

namespace Sys2Proof.Machine

/-! ## ADD, MUL, LT and EQ (41_arithmetic.md R125 to R128) -/

theorem exec_of_effect_ok {s : State} {p p' : Processor} {i : Instr} {o : StepOutcome} (hc : s.current = some p)
    (h : effect i s.cfg p = .ok (p', o)) : exec i s = .next (s.commit p' o) := by
  rw [exec_of_current hc, h, State.finish_ok]

section FormatF3
variable {alu : Config → Cell → Cell → Except Raise Cell} {i : Instr} {a b dst : Operand} {s : State} {p : Processor}
  {x y r : Cell} {d v : Int}

/-- An instruction of format F3 with readable operands and a legal destination completes with the ALU's result. -/
theorem exec_of_alu_ok (hi : effect i = binaryEffect alu a b dst) (hc : s.current = some p)
    (hx : p.readOperand s.cfg 1 a = .ok x) (hy : p.readOperand s.cfg 2 b = .ok y)
    (hd : p.writeAddr s.cfg 3 dst = .ok d) (hr : alu s.cfg x y = .ok r) :
    exec i s = .next (s.commit { p with mem := Memory.write p.mem d.toNat r, ip := p.ip + 4 } (.progress none)) :=
  exec_of_effect_ok hc (hi ▸ binaryEffect_of hx hy hd hr)

/-- What ADD and MUL share: the exact result goes through `fix` (R108), so it is stored, faults or wraps. -/
theorem exec_of_alu_fix (hi : effect i = binaryEffect alu a b dst) (hw : 1 ≤ s.cfg.cellW) (hc : s.current = some p)
    (hx : p.readOperand s.cfg 1 a = .ok x) (hy : p.readOperand s.cfg 2 b = .ok y)
    (hd : p.writeAddr s.cfg 3 dst = .ok d) (hv : alu s.cfg x y = fix s.cfg v) :
    (fitsW s.cfg v → exec i s =
      .next (s.commit { p with mem := Memory.write p.mem d.toNat v, ip := p.ip + 4 } (.progress none))) ∧
    (¬ fitsW s.cfg v → s.cfg.overflowPolicy = .fault → exec i s =
      .next (s.takeFault p ⟨.arithmeticOverflow, 0, some v⟩)) ∧
    (¬ fitsW s.cfg v → s.cfg.overflowPolicy = .wrap → ∃ r : Cell, fitsW s.cfg r ∧
      r % 2 ^ s.cfg.cellW = v % 2 ^ s.cfg.cellW ∧ exec i s =
        .next (s.commit { p with mem := Memory.write p.mem d.toNat r, ip := p.ip + 4 } (.progress none))) := by
  refine ⟨fun hf => ?fits, fun hf hp => ?fault,
    fun hf hp => ⟨wrapW s.cfg v, fitsW_wrapW hw v, wrapW_emod s.cfg v, ?wrap⟩⟩
  case fits => exact exec_of_alu_ok hi hc hx hy hd (hv.trans (fix_of_fits hf))
  case fault => exact exec_of_effect_error hc (hi ▸ binaryEffect_alu_fault hx hy hd (hv.trans (fix_of_fault hf hp)))
  case wrap => exact exec_of_alu_ok hi hc hx hy hd (hv.trans (fix_of_wrap hf hp))

end FormatF3

/-- Settles O15: the ALU narrows the exact sum by `fix`. -/
theorem addStoresTheSum : Obligations.AddStoresTheSum :=
  fun _ _ _ _ _ _ _ _ hw hc hx hy hd => exec_of_alu_fix (alu := aluAdd) rfl hw hc hx hy hd rfl

/-- Settles O16: the ALU narrows the exact product by `fix`. -/
theorem mulStoresTheProduct : Obligations.MulStoresTheProduct :=
  fun _ _ _ _ _ _ _ _ hw hc hx hy hd => exec_of_alu_fix (alu := aluMul) rfl hw hc hx hy hd rfl

/-- Settles O17: the ALU's comparison has no fault to raise. -/
theorem lessThanStoresOneOrZero : Obligations.LessThanStoresOneOrZero :=
  fun _ _ _ _ _ _ _ _ hc hx hy hd => exec_of_alu_ok (alu := fun _ x y => .ok (aluLt x y)) rfl hc hx hy hd rfl

/-- Settles O18: the ALU's test for equality has no fault to raise. -/
theorem equalsStoresOneOrZero : Obligations.EqualsStoresOneOrZero :=
  fun _ _ _ _ _ _ _ _ hc hx hy hd => exec_of_alu_ok (alu := fun _ x y => .ok (aluEq x y)) rfl hc hx hy hd rfl

end Sys2Proof.Machine

namespace Sys2Proof.Machine

/-! ## IN and OUT (42_io.md R135 to R137) -/

section InputOutput
variable {cfg : Config} {s : State} {p p' : Processor} {i : Instr} {o : StepOutcome} {dst : Operand} {r : Raise}
  {v : Cell}

theorem queueFull_eq_false {q : List Cell} :
    queueFull cfg q = false ↔ ∀ d, cfg.queueDepth = some d → q.length < d := by
  unfold queueFull
  cases cfg.queueDepth <;> simp

theorem queueFull_of_le {q : List Cell} {d : Nat} (hd : cfg.queueDepth = some d) (h : d ≤ q.length) :
    queueFull cfg q = true := by
  simp [queueFull, hd, h]

/-- An empty InQ takes a value unless QUEUE_DEPTH is 0, and a Blocked Processor runs again with it (R186). -/
theorem inject_of_blocked (hb : p.status = .blocked) (hq : p.inQ = []) (hd : cfg.queueDepth ≠ some 0) :
    p.inject cfg v = .ok { p with inQ := [v], status := .running } := by
  have room : queueFull cfg p.inQ = false := by
    refine queueFull_eq_false.2 fun n hn => ?_
    rw [hq]
    exact Nat.pos_of_ne_zero fun h0 => hd (h0 ▸ hn)
  exact inject_eq_ok.2 ⟨room, by simp [hq, hb]⟩

/-- The destination is checked before InQ is looked at (R135). The check of its mode raises the fault that `writeAddr`
raises for an Immediate one (log 11). -/
theorem inputEffect_target_fault (h : p.writeAddr cfg 1 dst = .error r) : inputEffect dst cfg p = .error r := by
  by_cases hm : dst.mode = .immediate
  · have immediate : p.writeAddr cfg 1 dst = .error ⟨.invalidWriteTarget, 1, none⟩ := by
      simp [Processor.writeAddr, Processor.targetAddr, hm]
    obtain rfl := Except.error.inj (h.symm.trans immediate)
    exact inputEffect_of_immediate hm
  · simp [inputEffect, checkTarget_eq_ok.2 hm, h, bind, Except.bind]

/-- Committing the Processor that stands at the cursor changes the outcome port alone. -/
theorem State.commit_current (hc : s.current = some p) : s.commit p o = { s with outcome := some o } := by
  obtain ⟨hlt, hp⟩ := List.getElem?_eq_some_iff.1 hc
  simp [commit, setCurrent, ← hp]

/-- A step in single-Processor mode whose fetched instruction completes commits what that instruction does. -/
theorem step_of_effect_ok (hr : s.ring = none) (hc : s.current = some p) (hs : p.status.Runs)
    (hf : p.fetch s.cfg = .ok i) (he : effect i s.cfg p = .ok (p', o)) : step s = .next (s.commit p' o) := by
  rw [step_single hr, State.stepCurrent_of_fetch hc hs hf, exec_of_effect_ok hc he]

theorem injectInput_of_inject (hr : s.ring = none) (hc : s.current = some p) (hv : fitsW s.cfg v)
    (hi : p.inject s.cfg v = .ok p') : s.injectInput v = .ok (s.setCurrent p') := by
  simp [State.injectInput, State.single_eq_ok.2 ⟨hr, hc⟩, hv, hi]

end InputOutput

/-- Settles O41: by the invariant a Blocked Processor is at an IN with a legal destination and an empty InQ. The IN runs
again as it is, or, the injection leaving M, ip and rb alone, with the injected value to pop. -/
theorem blockedInputRunsAgain : Obligations.BlockedInputRunsAgain := by
  intro s p v hwf hr hc hb hv
  have hp := hwf.procs_wf p (State.current_mem hc)
  have hq : p.inQ = [] := hp.blocked_empty hb
  obtain ⟨w, d, hf, hd⟩ := hp.blocked_input hb
  refine ⟨?starved, fun hdepth => ?completes⟩
  case starved =>
    have same : ({ p with status := .blocked } : Processor) = p := by rw [← hb]
    rw [step_of_effect_ok hr hc (.inr hb) hf (inputEffect_of_nil hd hq), same, State.commit_current hc]
  case completes =>
    have hc₁ := State.current_setCurrent (p' := { p with inQ := [v], status := .running }) hc
    have fetched : ({ p with inQ := [v], status := .running } : Processor).fetch s.cfg = .ok (.inp w) := by
      rw [← hf]
      exact fetch_congr rfl rfl
    refine ⟨w, d, _, _, hf, hd, injectInput_of_inject hr hc hv (inject_of_blocked hb hq hdepth),
      step_of_effect_ok hr hc₁ (.inl rfl) fetched (inputEffect_of_cons hd rfl), rfl, ?_⟩
    rw [State.current_commit hc₁, hq]

/-- Settles O19: the value waiting, the empty InQ and the bad destination, one after the other. -/
theorem inputStoresTheHeadOfTheQueue : Obligations.InputStoresTheHeadOfTheQueue := by
  intro s p dst hc
  exact ⟨fun d v q hd hq => exec_of_effect_ok hc (inputEffect_of_cons hd hq),
    fun d hd hq => exec_of_effect_ok hc (inputEffect_of_nil hd hq),
    fun r hd => exec_of_effect_error hc (inputEffect_target_fault hd)⟩

/-- Settles O20: OUT completes where OutQ has room, and the push faults where it has none. -/
theorem outputPushesTheOperand : Obligations.OutputPushesTheOperand := by
  intro s p v x hc hx
  exact ⟨fun hroom => exec_of_effect_ok hc (outputEffect_of hx (queueFull_eq_false.2 hroom)),
    fun d hd hfull => exec_of_effect_error hc (outputEffect_full hx (queueFull_of_le hd hfull))⟩

end Sys2Proof.Machine

namespace Sys2Proof.Machine

/-! ## JT, JF and HLT (43_control.md R145 to R147) -/

theorem aluNz_eq_true {x : Cell} : aluNz x = true ↔ x ≠ 0 := bne_iff_ne

theorem aluNz_eq_false {x : Cell} : aluNz x = false ↔ x = 0 := bne_eq_false_iff_eq

section Jumps
variable {taken : Cell → Bool} {i : Instr} {c t : Operand} {cfg : Config} {s : State} {p : Processor} {x y : Cell}
  {r : Raise}

theorem jumpTarget_read_fault (hy : p.readOperand cfg 2 t = .error r) : jumpTarget cfg p t = .error r := by
  simp [jumpTarget, hy, bind, Except.bind]

theorem jumpTarget_of_neg (hy : p.readOperand cfg 2 t = .ok y) (hn : y < 0) :
    jumpTarget cfg p t = .error ⟨.memoryFault, 2, some y⟩ := by
  simp [jumpTarget, hy, hn, bind, Except.bind, throw, throwThe, MonadExceptOf.throw]

theorem exec_of_jump_not_taken (hi : effect i = jumpEffect taken c t) (hc : s.current = some p)
    (hx : p.readOperand s.cfg 1 c = .ok x) (ht : taken x = false) :
    exec i s = .next (s.commit { p with ip := p.ip + 3 } (.progress none)) :=
  exec_of_effect_ok hc (hi ▸ jumpEffect_not_taken hx ht)

/-- What the taken JT and JF share: the target is read, and a negative one faults as one that cannot be read does. -/
theorem exec_of_jump_taken (hi : effect i = jumpEffect taken c t) (hc : s.current = some p)
    (hx : p.readOperand s.cfg 1 c = .ok x) (ht : taken x = true) :
    (∀ y, p.readOperand s.cfg 2 t = .ok y →
      (0 ≤ y → exec i s = .next (s.commit { p with ip := y.toNat } (.progress none))) ∧
      (y < 0 → exec i s = .next (s.takeFault p ⟨.memoryFault, 2, some y⟩))) ∧
    (∀ r, p.readOperand s.cfg 2 t = .error r → exec i s = .next (s.takeFault p r)) := by
  have fault {r : Raise} (h : jumpTarget s.cfg p t = .error r) : exec i s = .next (s.takeFault p r) :=
    exec_of_effect_error hc (hi ▸ jumpEffect_target_fault hx ht h)
  refine ⟨fun y hy => ⟨fun h0 => ?jumps, fun hn => fault (jumpTarget_of_neg hy hn)⟩,
    fun r hr => fault (jumpTarget_read_fault hr)⟩
  case jumps => exact exec_of_effect_ok hc (hi ▸ jumpEffect_taken hx ht (jumpTarget_eq_ok.2 ⟨y, hy, h0, rfl⟩))

end Jumps

/-- Settles O21: JT is the jump taken on `aluNz`. -/
theorem jumpIfTrueTakesANonzeroCondition : Obligations.JumpIfTrueTakesANonzeroCondition := by
  intro s p c t x hc hx
  have taken (h : x ≠ 0) := exec_of_jump_taken (i := .jt c t) rfl hc hx (aluNz_eq_true.2 h)
  exact ⟨fun h => exec_of_jump_not_taken (i := .jt c t) rfl hc hx (aluNz_eq_false.2 h),
    fun h => (taken h).1, fun h => (taken h).2⟩

/-- Settles O22: JF is the jump taken on the negation of `aluNz`. -/
theorem jumpIfFalseTakesAZeroCondition : Obligations.JumpIfFalseTakesAZeroCondition := by
  intro s p c t x hc hx
  have taken (h : x = 0) := exec_of_jump_taken (i := .jf c t) rfl hc hx (congrArg not (aluNz_eq_false.2 h))
  exact ⟨fun h => exec_of_jump_not_taken (i := .jf c t) rfl hc hx (congrArg not (aluNz_eq_true.2 h)),
    fun h => (taken h).1, fun h => (taken h).2⟩

/-- Settles O23: HLT has no operand to read and nothing to fault on. -/
theorem haltStopsTheProcessor : Obligations.HaltStopsTheProcessor :=
  fun _ _ hc => exec_of_effect_ok (i := .hlt) hc rfl

end Sys2Proof.Machine

namespace Sys2Proof.Machine

/-! ## ARB (44_relative_base.md R155) -/

/-- ARB with a readable operand completes with the ALU's result in rb. -/
theorem exec_arb_of_aluRb_ok {s : State} {p : Processor} {v : Operand} {x r : Cell} (hc : s.current = some p)
    (hx : p.readOperand s.cfg 1 v = .ok x) (hr : aluRb s.cfg p.rb x = .ok r) :
    exec (.arb v) s = .next (s.commit { p with rb := r, ip := p.ip + 2 } (.progress none)) :=
  exec_of_effect_ok (i := .arb v) hc (relativeBaseEffect_of hx hr)

/-- Settles O24: the ALU narrows the exact sum by `fix`, so it is kept, faults or wraps. -/
theorem adjustRelativeBaseAddsTheOperand : Obligations.AdjustRelativeBaseAddsTheOperand := by
  intro s p v x hw hc hx
  refine ⟨fun hf => ?fits, fun hf hp => ?fault,
    fun hf hp => ⟨wrapW s.cfg (p.rb + x), fitsW_wrapW hw _, wrapW_emod s.cfg _, ?wrap⟩⟩
  case fits => exact exec_arb_of_aluRb_ok hc hx (fix_of_fits hf)
  case fault => exact exec_of_effect_error (i := .arb v) hc (relativeBaseEffect_alu_fault hx (fix_of_fault hf hp))
  case wrap => exact exec_arb_of_aluRb_ok hc hx (fix_of_wrap hf hp)

end Sys2Proof.Machine

namespace Sys2Proof.Machine

/-! ## The slot (60_exceptions.md R177 to R181) -/

/-- The Processor at the cursor once the carry, if it is valid, is at the tail of its InQ (R178, R186). -/
def Processor.receive (p : Processor) (c : Carry) : Processor :=
  if c.valid then
    { p with inQ := p.inQ ++ [c.value], status := if p.status = .blocked then .running else p.status }
  else p

/-- The scheduler's registers once the carry has been handed over (R178). -/
def Ring.handOver (r : Ring) : Ring := { r with carry := ⟨false, r.carry.value⟩ }

/-- The block whose Processor `p` at the cursor has received the carry, as it is when the slot makes its step (R178). -/
def State.handOver (s : State) (r : Ring) (p : Processor) : State :=
  { s with procs := s.procs.set s.cursor (p.receive r.carry), ring := some r.handOver }

/-- What a step without a fault makes of the scheduler's registers: carry capture, and EndOfPass after the last Processor
(R178, R179). -/
def Ring.afterStep (r : Ring) (o : StepOutcome) (cursor : Nat) (procs : List Processor) : Ring :=
  if cursor + 1 = procs.length then (r.capture o).endOfPass procs else r.capture o

section Receive
variable {p : Processor} {c : Carry}

theorem receive_of_valid (h : c.valid = true) : p.receive c =
    { p with inQ := p.inQ ++ [c.value], status := if p.status = .blocked then .running else p.status } :=
  if_pos h

theorem receive_of_invalid (h : c.valid = false) : p.receive c = p :=
  if_neg (by simp [h])

/-- A received carry leaves a Processor's cells and ip alone, and so the instruction it fetches. -/
theorem fetch_receive (cfg : Config) : (p.receive c).fetch cfg = p.fetch cfg := by
  cases hv : c.valid with
  | true => exact receive_of_valid hv ▸ fetch_congr rfl rfl
  | false => rw [receive_of_invalid hv]

theorem receive_runs (h : p.status.Runs) : (p.receive c).status.Runs := by
  cases hv : c.valid with
  | true => rcases h with h | h <;> simp [receive_of_valid hv, Status.Runs, h]
  | false => rwa [receive_of_invalid hv]

theorem receive_not_faulted (h : p.status ≠ .faulted) : (p.receive c).status ≠ .faulted := by
  cases hv : c.valid with
  | true => by_cases hb : p.status = .blocked <;> simp [receive_of_valid hv, hb, h]
  | false => rwa [receive_of_invalid hv]

end Receive

theorem Ring.handOver_of_invalid {r : Ring} (h : r.carry.valid = false) : r.handOver = r := by
  simp only [handOver, ← h]

namespace State
variable {s s₁ s' : State} {r : Ring} {p : Processor} {o : StepOutcome} {f : FaultRecord}

theorem current_handOver (hc : s.current = some p) : (s.handOver r p).current = some (p.receive r.carry) :=
  current_setCurrent (p' := p.receive r.carry) hc

theorem handOver_step_cursor (h : (s.handOver r p).stepCurrent = .next s₁) : s₁.cursor = s.cursor :=
  (stepCurrent_sameAround h).cursor

theorem handOver_step_length (h : (s.handOver r p).stepCurrent = .next s₁) : s₁.procs.length = s.procs.length :=
  (stepCurrent_sameAround h).count.trans (List.length_set ..)

/-- Without a carry there is nothing to hand over. -/
theorem handOver_of_invalid (hr : s.ring = some r) (hc : s.current = some p) (hv : r.carry.valid = false) :
    s.handOver r p = s := by
  obtain ⟨hlt, hp⟩ := List.getElem?_eq_some_iff.1 hc
  simp [handOver, receive_of_invalid hv, Ring.handOver_of_invalid hv, ← hr, ← hp]

theorem carryFits_of_invalid (hv : r.carry.valid = false) : s.CarryFits r := fun h => by simp [hv] at h

/-- A slot whose carry fits hands it over and then makes one step (R178). -/
theorem slot_of_fits (hr : s.ring = some r) (hc : s.current = some p) (hf : s.CarryFits r) :
    s.slot r = (s.handOver r p).slotStep r.handOver := by
  cases hv : r.carry.valid with
  | false => simp [handOver_of_invalid hr hc hv, Ring.handOver_of_invalid hv, slot, hc, hv]
  | true =>
    have hi : p.inject s.cfg r.carry.value = .ok (p.receive r.carry) :=
      inject_eq_ok.2 ⟨hf hv p hc, receive_of_valid hv⟩
    simp [slot, hc, hv, hi, handOver, Ring.handOver, setCurrent]

/-- A carry that does not fit stops the network before any step (R167, R181; log 13). -/
theorem slot_of_not_fits (hc : s.current = some p) (hf : ¬ s.CarryFits r) :
    s.slot r = .next { s with ring := some (r.abort s.cursor (schedulerRecord .queueOverflow none)) } := by
  obtain ⟨hv, hq⟩ : r.carry.valid = true ∧ queueFull s.cfg p.inQ = true := by
    simpa [CarryFits, hc] using hf
  simp [slot, hc, hv, inject_eq_error.2 ⟨hq, rfl⟩]

/-- Every step of a Processor reports an outcome (R111). -/
theorem stepCurrent_outcome (h : s.stepCurrent = .next s') : ∃ o, s'.outcome = some o := by
  obtain ⟨p, -, ⟨-, rfl⟩ | ⟨-, r, -, rfl⟩ | ⟨-, i, p', o, -, -, rfl⟩⟩ := stepCurrent_cases h <;> exact ⟨_, rfl⟩

theorem endSlot_of_fault (h : s.outcome = some (.fault f)) :
    s.endSlot r = { s with ring := some (r.abort s.cursor f) } := by
  simp only [endSlot, h]

theorem endSlot_of_no_fault (h : s.outcome = some o) (hf : ∀ f, o ≠ .fault f) :
    s.endSlot r =
      { s with ring := some (r.afterStep o s.cursor s.procs), cursor := (s.cursor + 1) % s.procs.length } := by
  cases o with
  | fault f => exact absurd rfl (hf f)
  | progress _ | starved | idle => simp only [endSlot, h, Ring.afterStep]

end State

/-- How a slot of the ring ends: a carry that does not fit, a step that faults, or a step that does not (R178, R181). -/
inductive State.SlotEnd (s : State) (r : Ring) : State → Prop where
  | overflow (full : ¬ s.CarryFits r) :
    SlotEnd s r { s with ring := some (r.abort s.cursor (schedulerRecord .queueOverflow none)) }
  | faults {p : Processor} {s₁ : State} {f : FaultRecord} (fits : s.CarryFits r) (current : s.current = some p)
      (stepped : (s.handOver r p).stepCurrent = .next s₁) (outcome : s₁.outcome = some (.fault f)) :
    SlotEnd s r { s₁ with ring := some (r.handOver.abort s.cursor f) }
  | completes {p : Processor} {s₁ : State} {o : StepOutcome} (fits : s.CarryFits r) (current : s.current = some p)
      (stepped : (s.handOver r p).stepCurrent = .next s₁) (outcome : s₁.outcome = some o)
      (no_fault : ∀ f, o ≠ .fault f) :
    SlotEnd s r { s₁ with
      ring := some (r.handOver.afterStep o s.cursor s₁.procs), cursor := (s.cursor + 1) % s.procs.length }

/-- A slot that has a next state has one of these ends (R178). -/
theorem State.slot_ends {s s' : State} {r : Ring} (hr : s.ring = some r) (h : s.slot r = .next s') :
    s.SlotEnd r s' := by
  obtain ⟨p, hc, -⟩ := slot_cases h
  by_cases hf : s.CarryFits r
  · rw [slot_of_fits hr hc hf] at h
    obtain ⟨s₁, h₁, rfl⟩ := slotStep_eq_next.1 h
    have hcur := handOver_step_cursor h₁
    have hlen := handOver_step_length h₁
    obtain ⟨o, ho⟩ := stepCurrent_outcome h₁
    by_cases hfault : ∃ f, o = .fault f
    · obtain ⟨f, rfl⟩ := hfault
      have ends := SlotEnd.faults hf hc h₁ ho
      rwa [← hcur, ← endSlot_of_fault ho] at ends
    · have hfault : ∀ f, o ≠ .fault f := fun f hf => hfault ⟨f, hf⟩
      rw [endSlot_of_no_fault ho hfault, hcur, hlen]
      exact .completes hf hc h₁ ho hfault
  · rw [slot_of_not_fits hc hf] at h
    cases h
    exact .overflow hf

/-- Every step of a network is a slot of a running ring, with one of its ends. -/
theorem step_ends {s s' : State} {r : Ring} (hr : s.ring = some r) (h : step s = .next s') :
    r.nstatus = .running ∧ s.SlotEnd r s' := by
  obtain ⟨hn, -⟩ | ⟨r', hr', hn, h⟩ := step_cases h
  · cases hn.symm.trans hr
  · cases hr'.symm.trans hr
    exact ⟨hn, State.slot_ends hr h⟩

/-! ## What a step leaves of the Processor at the cursor (R180) -/

/-- A fault is not among the outcomes of an instruction that completes. -/
theorem effect_outcome_ne_fault {i : Instr} {cfg : Config} {p p' : Processor} {o : StepOutcome}
    (h : effect i cfg p = .ok (p', o)) (f : FaultRecord) : o ≠ .fault f := by
  rcases effect_cases h with ⟨_, _, -, -, rfl, -⟩ | ⟨_, -, rfl, -⟩ | ⟨_, _, _, _, -, rfl, -⟩ | ⟨_, _, -, rfl, -⟩ |
    ⟨_, -, rfl, -⟩ | ⟨_, _, -, rfl, -⟩ | ⟨-, rfl, -⟩ <;> simp

/-- An instruction that completes without progress is an IN with nothing to pop, and leaves its Processor Quiet. -/
theorem effect_quiet {i : Instr} {cfg : Config} {p p' : Processor} {o : StepOutcome}
    (h : effect i cfg p = .ok (p', o)) (ho : ∀ out, o ≠ .progress out) : p'.Quiet := by
  rcases effect_cases h with ⟨_, _, -, -, rfl, -⟩ | ⟨_, -, -, hq, rfl⟩ | ⟨_, _, _, _, -, rfl, -⟩ | ⟨_, _, -, rfl, -⟩ |
    ⟨_, -, rfl, -⟩ | ⟨_, _, -, rfl, -⟩ | ⟨-, rfl, -⟩
  case inr.inl => exact .inr ⟨rfl, hq⟩
  all_goals exact absurd rfl (ho _)

/-- A step without a fault puts at the cursor a Processor that is not Faulted, and that is Quiet unless the step made
progress. -/
theorem stepCurrent_leaves {s s' : State} {p : Processor} {o : StepOutcome} (hc : s.current = some p)
    (h : s.stepCurrent = .next s') (ho : s'.outcome = some o) (hf : ∀ f, o ≠ .fault f) (hp : p.status ≠ .faulted) :
    ∃ p', s'.procs = s.procs.set s.cursor p' ∧ p'.status ≠ .faulted ∧ ((∀ out, o ≠ .progress out) → p'.Quiet) := by
  obtain ⟨q, hq, ⟨hs, rfl⟩ | ⟨-, r, -, rfl⟩ | ⟨hs, i, p', o', -, he, rfl⟩⟩ := State.stepCurrent_cases h
  · cases hc.symm.trans hq
    obtain ⟨hlt, hget⟩ := List.getElem?_eq_some_iff.1 hc
    exact ⟨p, by simp [← hget], hp, fun _ => .inl ((Status.not_runs.1 hs).resolve_right hp)⟩
  · cases ho
    exact absurd rfl (hf _)
  · cases hc.symm.trans hq
    cases ho
    exact ⟨p', rfl, (effect_frame he).not_faulted hs, effect_quiet he⟩

/-! ## The scheduler's registers (R178 to R182) -/

namespace Ring
variable {r : Ring} {o : StepOutcome} {procs : List Processor} {n : Nat}

@[simp] theorem capture_nstatus : (r.capture o).nstatus = r.nstatus := by
  unfold capture
  split <;> rfl

@[simp] theorem capture_nfault : (r.capture o).nfault = r.nfault := by
  unfold capture
  split <;> rfl

@[simp] theorem capture_result : (r.capture o).result = r.result := by
  unfold capture
  split <;> rfl

/-- Progress, and nothing else, sets pass_progress (R178). -/
theorem capture_passProgress :
    (r.capture o).passProgress = true ↔ r.passProgress = true ∨ ∃ out, o = .progress out := by
  cases o with
  | progress out => cases out <;> simp [capture]
  | starved | idle | fault _ => simp [capture]

theorem capture_carry_of_no_output (h : ∀ v, o ≠ .progress (some v)) : (r.capture o).carry = r.carry := by
  rcases o with (_ | v) | _ | _ | _
  case progress.some => exact absurd rfl (h v)
  all_goals rfl

theorem all_halted : procs.all (fun p => p.status == .halted) = true ↔ ∀ p ∈ procs, p.status = .halted := by
  simp

theorem endOfPass_of_output {v : Cell} (h : ∀ p ∈ procs, p.status = .halted)
    (hv : procs.getLast?.bind Processor.lastOutput = some v) :
    r.endOfPass procs = { r with nstatus := .done, result := some v, passProgress := false } := by
  simp only [endOfPass, if_pos (all_halted.2 h), hv]

theorem endOfPass_of_no_output (h : ∀ p ∈ procs, p.status = .halted)
    (hv : procs.getLast?.bind Processor.lastOutput = none) :
    r.endOfPass procs =
      { r.abort (procs.length - 1) (schedulerRecord .noOutput (some (procs.length - 1 : Nat))) with
        passProgress := false } := by
  simp only [endOfPass, if_pos (all_halted.2 h), hv]

theorem endOfPass_of_progress (h : ¬ ∀ p ∈ procs, p.status = .halted) (hp : r.passProgress = true) :
    r.endOfPass procs = { r with passProgress := false } := by
  simp only [endOfPass, if_neg (mt all_halted.1 h), if_pos hp]

theorem endOfPass_of_no_progress (h : ¬ ∀ p ∈ procs, p.status = .halted) (hp : r.passProgress = false) :
    r.endOfPass procs = { r with nstatus := .deadlocked, passProgress := false } := by
  simp only [endOfPass, if_neg (mt all_halted.1 h), hp, Bool.false_eq_true, if_false]

@[simp] theorem endOfPass_passProgress : (r.endOfPass procs).passProgress = false := rfl

/-- EndOfPass leaves the carry alone (R179). -/
@[simp] theorem endOfPass_carry : (r.endOfPass procs).carry = r.carry := by
  unfold endOfPass
  dsimp only
  split_ifs
  · split <;> rfl
  all_goals rfl

theorem afterStep_carry : (r.afterStep o n procs).carry = (r.capture o).carry := by
  unfold afterStep
  split_ifs
  · exact endOfPass_carry
  · rfl

/-! ## The registers stay true of the Processors (R179 to R182) -/

theorem consistent_of_running (hn : r.nstatus = .running) : r.Consistent procs n ↔
    (∀ p ∈ procs, p.status ≠ .faulted) ∧ r.nfault = none ∧ r.result = none ∧
      (r.passProgress = false → (∀ p ∈ procs.take n, p.Quiet) ∧ (0 < n → r.carry.valid = false)) := by
  rw [Consistent, hn]

theorem consistent_abort (h : r.result = none) (k : Nat) (f : FaultRecord) : (r.abort k f).Consistent procs n :=
  ⟨rfl, h⟩

/-- EndOfPass after the last Processor of a ring that was true of its Processors leaves it true of them: a pass without
progress has left every Processor Quiet, and one that is not Halted is then Blocked. -/
theorem Consistent.endOfPass (hn : r.nstatus = .running) (h : r.Consistent procs procs.length) (h0 : 0 < procs.length) :
    (r.endOfPass procs).Consistent procs 0 := by
  obtain ⟨not_faulted, hfault, hresult, quiet⟩ := (consistent_of_running hn).1 h
  by_cases halted : ∀ p ∈ procs, p.status = .halted
  · cases hv : procs.getLast?.bind Processor.lastOutput with
    | some v =>
      rw [endOfPass_of_output halted hv]
      exact ⟨halted, hfault, v, rfl, hv⟩
    | none =>
      rw [endOfPass_of_no_output halted hv]
      exact ⟨rfl, hresult⟩
  · cases hp : r.passProgress with
    | true =>
      rw [endOfPass_of_progress halted hp]
      exact (consistent_of_running (r := { r with passProgress := false }) hn).2
        ⟨not_faulted, hfault, hresult, fun _ => by simp⟩
    | false =>
      rw [endOfPass_of_no_progress halted hp]
      obtain ⟨all_quiet, no_carry⟩ := quiet hp
      rw [List.take_length] at all_quiet
      push Not at halted
      obtain ⟨p, hmem, hne⟩ := halted
      exact ⟨all_quiet, ⟨p, hmem, ((all_quiet p hmem).resolve_left hne).1⟩, no_carry h0, hfault, hresult⟩

/-- A slot's step without a fault keeps the ring true of its Processors: if the pass has made no progress so far, the
Processor just stepped joins the Quiet ones before it. -/
theorem Consistent.afterStep {p' : Processor} (hn : r.nstatus = .running) (h : r.Consistent procs n)
    (hlt : n < procs.length) (hf : p'.status ≠ .faulted) (hq : (∀ out, o ≠ .progress out) → p'.Quiet) :
    (r.handOver.afterStep o n (procs.set n p')).Consistent (procs.set n p') ((n + 1) % procs.length) := by
  obtain ⟨not_faulted, hfault, hresult, quiet⟩ := (consistent_of_running hn).1 h
  have hn' : (r.handOver.capture o).nstatus = .running := capture_nstatus.trans hn
  have captured : (r.handOver.capture o).Consistent (procs.set n p') (n + 1) := by
    refine (consistent_of_running hn').2 ⟨?_, capture_nfault.trans hfault, capture_result.trans hresult, fun hp => ?_⟩
    · intro q hmem
      rcases List.mem_or_eq_of_mem_set hmem with hmem | rfl
      · exact not_faulted q hmem
      · exact hf
    · obtain ⟨no_pass, no_progress⟩ := not_or.1 (mt capture_passProgress.2 (Bool.eq_false_iff.1 hp))
      have no_output : ∀ out, o ≠ .progress out := fun out ho => no_progress ⟨out, ho⟩
      obtain ⟨before, -⟩ := quiet (Bool.eq_false_iff.2 no_pass)
      refine ⟨?_, fun _ => congrArg Carry.valid (capture_carry_of_no_output fun v => no_output (some v))⟩
      rw [List.take_add_one, List.take_set_of_le le_rfl, List.getElem?_set_self hlt]
      intro q hmem
      rcases List.mem_append.1 hmem with hmem | hmem
      · exact before q hmem
      · obtain rfl : q = p' := by simpa using hmem
        exact hq no_output
  unfold Ring.afterStep
  split_ifs with hlast
  · rw [List.length_set] at hlast
    rw [hlast, Nat.mod_self]
    exact Consistent.endOfPass hn' (by rwa [hlast, ← List.length_set] at captured) (by simp; omega)
  · rw [List.length_set] at hlast
    rwa [Nat.mod_eq_of_lt (by omega)]

end Ring

/-- Settles O47: by the end of the slot. An abort is consistent as long as there is no result, and a step without a fault
leaves a Quiet Processor behind it or makes progress. -/
theorem everySlotKeepsTheRingConsistent : Obligations.EverySlotKeepsTheRingConsistent := by
  intro s s' _ hcons h g hg
  cases hr : s.ring with
  | none =>
    rw [step_single hr] at h
    rw [(State.stepCurrent_sameAround h).ring, hr] at hg
    cases hg
  | some r =>
    obtain ⟨hn, ends⟩ := step_ends hr h
    have consistent := hcons r hr
    obtain ⟨not_faulted, -, hresult, -⟩ := (Ring.consistent_of_running hn).1 consistent
    cases ends with
    | overflow _ =>
      cases hg
      exact Ring.consistent_abort hresult _ _
    | faults _ _ _ _ =>
      cases hg
      exact Ring.consistent_abort (r := r.handOver) hresult _ _
    | @completes p s₁ o _ hc stepped outcome no_fault =>
      cases hg
      obtain ⟨p', hprocs, hf, hq⟩ := stepCurrent_leaves (State.current_handOver hc) stepped outcome no_fault
        (receive_not_faulted (not_faulted p (State.current_mem hc)))
      have hset : s₁.procs = s.procs.set s.cursor p' := hprocs.trans (List.set_set ..)
      dsimp only
      rw [hset]
      exact consistent.afterStep hn (State.current_lt hc) hf hq

end Sys2Proof.Machine

namespace Sys2Proof.Machine

/-! ## Fault entry (60_exceptions.md R161) -/

/-- Settles O38: the fault of the fetch or of the instruction, as `takeFault` records it; no instruction that completes
reports a fault. -/
theorem faultEntryIsPrecise : Obligations.FaultEntryIsPrecise := by
  intro s s' f h ho
  obtain ⟨p, hc, ⟨-, rfl⟩ | ⟨hs, r, -, rfl⟩ | ⟨-, i, p', o, -, he, rfl⟩⟩ := State.stepCurrent_cases h
  · cases ho
  · cases ho
    refine ⟨State.sameAround_takeFault s p r, p, hc, hs, rfl, ?_⟩
    rcases Nat.lt_or_ge p.ip s.cfg.memCapacity with hl | hl
    · have hw := fetchedWord_of_lt hl
      exact ⟨by simp [Processor.faultRecord, hw, hl], by simp [Processor.faultRecord, hw], State.current_commit hc⟩
    · have hw := fetchedWord_of_ge hl
      exact ⟨by simp [Processor.faultRecord, hw, hl], by simp [Processor.faultRecord, hw], State.current_commit hc⟩
  · cases ho
    exact absurd rfl (effect_outcome_ne_fault he f)

/-! ## What a slot does (60_exceptions.md R177 to R182, 70_reset_and_hazards.md R208) -/

/-- A slot whose carry fits hands it over, makes one step, and ends; the step of a Processor that the gate lets through
is the instruction its cells decode to, as they were before the carry (R178). -/
theorem step_of_fits {s : State} {r : Ring} {p : Processor} (hr : s.ring = some r) (hn : r.nstatus = .running)
    (hc : s.current = some p) (hf : s.CarryFits r) :
    ∃ s₁, (s.handOver r p).stepCurrent = .next s₁ ∧ step s = .next (s₁.endSlot r.handOver) ∧
      ∀ (i : Instr) (rest : List Cell), p.status.Runs → decode (p.window 4) = .ok (i, rest) →
        p.ip + i.length ≤ s.cfg.memCapacity → exec i (s.handOver r p) = .next s₁ := by
  have hc₁ := State.current_handOver (r := r) hc
  obtain ⟨s₁, h₁⟩ := State.stepCurrent_next hc₁
  refine ⟨s₁, h₁, ?_, fun i rest hs hdec hl => ?_⟩
  · rw [step_network hr hn, State.slot_of_fits hr hc hf, State.slotStep_eq_next.2 ⟨s₁, h₁, rfl⟩]
  · have fetched := (fetch_receive (c := r.carry) s.cfg).trans (fetch_of_decode hdec hl)
    rw [← h₁, State.stepCurrent_of_fetch hc₁ (receive_runs hs) fetched]

/-- Settles O33: without a carry the Processor at the cursor receives nothing. -/
theorem slotRunsTheDecodedInstruction : Obligations.SlotRunsTheDecodedInstruction := by
  intro s r p hr hn hc
  refine ⟨fun hv => ?no_carry, fun hv hf => ?carry⟩
  case no_carry =>
    have stepped := step_of_fits hr hn hc (State.carryFits_of_invalid hv)
    rwa [State.handOver_of_invalid hr hc hv, Ring.handOver_of_invalid hv] at stepped
  case carry =>
    have stepped := step_of_fits hr hn hc hf
    rwa [State.handOver, receive_of_valid hv] at stepped

/-- Settles O51: the ends of the slot; in single-Processor mode the step is the Processor's. -/
theorem cursorGoesRoundTheRing : Obligations.CursorGoesRoundTheRing := by
  intro s s' h
  refine ⟨fun hr => ?_, fun r hr hfits no_fault => ?_⟩
  · rw [step_single hr] at h
    exact (State.stepCurrent_sameAround h).cursor
  · obtain ⟨-, ends⟩ := step_ends hr h
    cases ends with
    | overflow full => exact absurd hfits full
    | faults _ _ _ outcome => exact absurd outcome (no_fault _)
    | completes _ _ _ _ _ => rfl

/-- Settles O52: a slot that ends without NFaulted has completed, its carry invalid until capture; and the next slot
hands a valid carry over before its step. -/
theorem carryGoesToTheNextSlot : Obligations.CarryGoesToTheNextSlot := by
  intro s s' r' o hsome h hr' hn' ho
  obtain ⟨r, hr⟩ := Option.isSome_iff_exists.1 hsome
  obtain ⟨-, ends⟩ := step_ends hr h
  have captured : r'.carry = (r.handOver.capture o).carry := by
    cases ends with
    | overflow _ | faults _ _ _ _ =>
      cases hr'
      exact absurd rfl hn'
    | completes _ _ _ outcome _ =>
      cases hr'
      cases outcome.symm.trans ho
      exact Ring.afterStep_carry
  refine ⟨?_, fun no_output => ?_, fun p hv hn hc hf => ?_⟩
  · rintro v rfl
    exact captured
  · rw [captured, Ring.capture_carry_of_no_output no_output]
    rfl
  · rw [step_network hr' hn, State.slot_of_fits hr' hc hf, State.handOver, receive_of_valid hv]
    rfl

/-- Settles O53: the slot completed, and its EndOfPass sees the Processors it leaves. -/
theorem endOfPassDecides : Obligations.EndOfPassDecides := by
  intro s s' r r' p hr hlast hf h no_fault hr' hp
  obtain ⟨hn, ends⟩ := step_ends hr h
  cases ends with
  | overflow full => exact absurd hf full
  | faults _ _ _ outcome => exact absurd outcome (no_fault _)
  | @completes q s₁ o _ _ stepped outcome _ =>
    cases hr'
    have hout : s₁.procs.getLast?.bind Processor.lastOutput = p.lastOutput := by
      rw [List.getLast?_eq_getElem?, hp, Option.bind_some]
    have hpass : (r.handOver.capture o).passProgress = true ↔
        r.passProgress = true ∨ ∃ out, s₁.outcome = some (.progress out) := by
      rw [Ring.capture_passProgress, outcome]
      simp [Ring.handOver]
    rw [Ring.afterStep, if_pos (hlast.trans (State.handOver_step_length stepped).symm)]
    refine ⟨Ring.endOfPass_passProgress, fun halted => ⟨fun v hv => ?output, fun hv => ?no_output⟩,
      fun ⟨q, hmem, hq⟩ => ?ongoing⟩
    case output =>
      rw [Ring.endOfPass_of_output halted (hout.trans hv)]
      exact ⟨rfl, rfl⟩
    case no_output =>
      rw [Ring.endOfPass_of_no_output halted (hout.trans hv)]
      exact ⟨rfl, _, rfl, rfl, rfl⟩
    case ongoing =>
      have not_halted : ¬ ∀ q ∈ s₁.procs, q.status = .halted := fun halted => hq (halted q hmem)
      refine ⟨fun progress => ?_, fun ⟨no_pass, no_progress⟩ => ?_⟩
      · rw [Ring.endOfPass_of_progress not_halted (hpass.2 progress)]
        exact Ring.capture_nstatus.trans hn
      · have stuck := mt hpass.1 (not_or.2 ⟨by simp [no_pass], fun ⟨out, ho⟩ => no_progress out ho⟩)
        rw [Ring.endOfPass_of_no_progress not_halted (Bool.eq_false_iff.2 stuck)]

/-! ## The end of a network (60_exceptions.md R180 to R182, R188) -/

/-- Settles O56: `State.turn` looks at nstatus first. -/
theorem endedNetworkTakesNoSlot : Obligations.EndedNetworkTakesNoSlot := by
  intro s r hr
  exact ⟨fun hn => by simp only [step, State.turn, hr, hn], fun hn => by simp only [step, State.turn, hr, hn],
    fun hn => by simp only [step, State.turn, hr, hn]⟩

/-- What `run` returns of a network that has ended; none on NDeadlocked, and while it runs (R188). -/
def Ring.networkReturn (r : Ring) : Option NetworkReturn :=
  match r.nstatus with
  | .done => r.result.map NetworkReturn.result
  | .faulted => r.nfault.map (fun f => NetworkReturn.fault f.1 f.2)
  | .deadlocked | .running => none

section Run
variable {n m : Nat} {s : State} {r : Ring} {x : NetworkReturn} {v : Cell}

/-- `run` returns at once from a network that has ended, or makes a slot and goes on with the bound less by one. -/
theorem runNetwork_eq_some : State.runNetwork n s = some x ↔ ∃ r, s.ring = some r ∧
    (r.networkReturn = some x ∨
      (r.nstatus = .running ∧ ∃ m s₁, n = m + 1 ∧ step s = .next s₁ ∧ State.runNetwork m s₁ = some x)) := by
  rw [State.runNetwork.eq_def]
  cases hr : s.ring with
  | none => simp [hr]
  | some r =>
    unfold Ring.networkReturn
    cases hn : r.nstatus with
    | done | faulted | deadlocked => simp [hr, hn]
    | running =>
      cases n with
      | zero => simp [hr, hn]
      | succ n => cases hstep : step s <;> simp [hr, hn, hstep]

theorem networkReturn_eq_result : r.networkReturn = some (.result v) ↔ r.nstatus = .done ∧ r.result = some v := by
  unfold Ring.networkReturn
  cases r.nstatus <;> simp

/-- An aborted network takes no further slot, and `run` returns the fault whatever the bound (R181, R188). -/
theorem step_of_abort {k : Nat} {f : FaultRecord} (hr : s.ring = some (r.abort k f)) :
    step s = .fault .networkFaulted ∧ ∀ n, State.runNetwork n s = some (.fault k f) := by
  obtain ⟨-, -, stops⟩ := endedNetworkTakesNoSlot s _ hr
  exact ⟨stops rfl, fun n => runNetwork_eq_some.2 ⟨_, hr, .inl rfl⟩⟩

/-- A larger bound changes no answer. -/
theorem runNetwork_mono (h : State.runNetwork n s = some x) (hnm : n ≤ m) : State.runNetwork m s = some x := by
  induction m generalizing n s with
  | zero => rwa [Nat.le_zero.1 hnm] at h
  | succ m ih =>
    obtain ⟨r, hr, ended | ⟨hn, k, s₁, rfl, hstep, h'⟩⟩ := runNetwork_eq_some.1 h
    · exact runNetwork_eq_some.2 ⟨r, hr, .inl ended⟩
    · exact runNetwork_eq_some.2 ⟨r, hr, .inr ⟨hn, m, s₁, rfl, hstep, ih h' (Nat.le_of_succ_le_succ hnm)⟩⟩

/-- A run that returns a result has made so many slots, to an NDone that both invariants hold of. -/
theorem runNetwork_reaches (hwf : s.WF) (hcons : s.RingConsistent) (h : State.runNetwork n s = some (.result v)) :
    ∃ s' r, s'.RingConsistent ∧ s'.ring = some r ∧ r.nstatus = .done ∧ r.result = some v ∧
      ∃ k, k ≤ n ∧ Host.Core.run Sys2Proof.core k s = .next s' := by
  induction n generalizing s with
  | zero =>
    obtain ⟨r, hr, ended | ⟨-, m, -, hm, -, -⟩⟩ := runNetwork_eq_some.1 h
    · obtain ⟨hn, hv⟩ := networkReturn_eq_result.1 ended
      exact ⟨s, r, hcons, hr, hn, hv, 0, le_rfl, rfl⟩
    · cases hm
  | succ n ih =>
    obtain ⟨r, hr, ended | ⟨-, m, s₁, hm, hstep, h'⟩⟩ := runNetwork_eq_some.1 h
    · obtain ⟨hn, hv⟩ := networkReturn_eq_result.1 ended
      exact ⟨s, r, hcons, hr, hn, hv, 0, Nat.zero_le _, rfl⟩
    · cases hm
      obtain ⟨s', r', hcons', hr', hn, hv, k, hk, hrun⟩ := ih (everyStepKeepsTheMachineWellFormed s s₁ hwf hstep)
        (everySlotKeepsTheRingConsistent s s₁ hwf hcons hstep) h'
      exact ⟨s', r', hcons', hr', hn, hv, k + 1, Nat.succ_le_succ hk, core_run_succ.2 ⟨s₁, hstep, hrun⟩⟩

end Run

/-- Settles O54: both aborts leave a ring of the form that `step_of_abort` speaks of. -/
theorem faultsStopTheNetwork : Obligations.FaultsStopTheNetwork := by
  intro s s' r f hr h
  obtain ⟨-, ends⟩ := step_ends hr h
  refine ⟨fun hf ho => ?_, fun hf => ?_⟩
  · cases ends with
    | overflow full => exact absurd hf full
    | faults _ _ stepped outcome =>
      cases outcome.symm.trans ho
      have hcur := State.handOver_step_cursor stepped
      exact ⟨_, rfl, rfl, rfl, hcur, step_of_abort rfl⟩
    | completes _ _ _ outcome no_fault => exact absurd (Option.some.inj (outcome.symm.trans ho)) (no_fault f)
  · cases ends with
    | overflow _ => exact ⟨_, _, rfl, rfl, rfl, rfl, rfl, rfl, step_of_abort rfl⟩
    | faults fits _ _ _ => exact absurd fits hf
    | completes fits _ _ _ _ => exact absurd fits hf

/-- Settles O60: the slots made so far kept the ring consistent, and NDone then says the rest. -/
theorem networkRunReturnsTheLastOutput : Obligations.NetworkRunReturnsTheLastOutput := by
  intro n m s v hwf hcons h hnm
  obtain ⟨s', r, hcons', hr, hn, hv, reached⟩ := runNetwork_reaches hwf hcons h
  have done := hcons' r hr
  rw [Ring.Consistent, hn] at done
  obtain ⟨halted, -, u, hu, hlast⟩ := done
  cases hu.symm.trans hv
  exact ⟨runNetwork_mono h hnm, s', halted, hlast, reached⟩

/-! ## NDeadlocked (60_exceptions.md R180) -/

/-- A step of a Quiet Processor changes the outcome port alone: it is Idle, or its IN is Starved again. -/
theorem stepCurrent_of_quiet {s : State} {p : Processor} (hwf : p.WF s.cfg) (hc : s.current = some p) (hq : p.Quiet) :
    ∃ o, (o = .starved ∨ o = .idle) ∧ s.stepCurrent = .next { s with outcome := some o } := by
  obtain hh | ⟨hb, hin⟩ := hq
  · exact ⟨.idle, .inr rfl, State.stepCurrent_of_stopped hc (Status.not_runs.2 (.inl hh))⟩
  · obtain ⟨w, d, hf, hd⟩ := hwf.blocked_input hb
    have same : ({ p with status := .blocked } : Processor) = p := by rw [← hb]
    refine ⟨.starved, .inl rfl, ?_⟩
    rw [State.stepCurrent_of_fetch hc (.inr hb) hf, exec_of_effect_ok (i := .inp w) hc (inputEffect_of_nil hd hin), same,
      State.commit_current hc]

/-- A slot of a Quiet Processor, with no carry pending, changes no Processor and no carry, and makes no progress. -/
theorem step_of_quiet {s : State} {r : Ring} {p : Processor} (hr : s.ring = some r) (hn : r.nstatus = .running)
    (hv : r.carry.valid = false) (hwf : p.WF s.cfg) (hc : s.current = some p) (hq : p.Quiet) :
    ∃ s' r' o, step s = .next s' ∧ s'.procs = s.procs ∧ s'.ring = some r' ∧ r'.carry = r.carry ∧
      s'.outcome = some o ∧ (o = .starved ∨ o = .idle) := by
  obtain ⟨o, ho, stepped⟩ := stepCurrent_of_quiet hwf hc hq
  have no_fault : ∀ f, o ≠ .fault f := by rcases ho with rfl | rfl <;> simp
  have no_output : ∀ v, o ≠ .progress (some v) := by rcases ho with rfl | rfl <;> simp
  obtain ⟨s₁, h₁, slot, -⟩ := step_of_fits hr hn hc (State.carryFits_of_invalid hv)
  rw [State.handOver_of_invalid hr hc hv] at h₁
  cases stepped.symm.trans h₁
  rw [Ring.handOver_of_invalid hv, State.endSlot_of_no_fault rfl no_fault] at slot
  exact ⟨_, _, o, slot, rfl, rfl, Ring.afterStep_carry.trans (Ring.capture_carry_of_no_output no_output), rfl, ho⟩

/-- Settles O55: NDeadlocked leaves every Processor Quiet and no carry to hand over. -/
theorem deadlockIsAFixedPoint : Obligations.DeadlockIsAFixedPoint := by
  intro s r k hwf hcons hr hn hk
  have deadlocked := hcons r hr
  rw [Ring.Consistent, hn] at deadlocked
  obtain ⟨quiet, -, no_carry, -, -⟩ := deadlocked
  have hmem := List.getElem_mem hk
  exact step_of_quiet (s := { s with cursor := k, ring := some { r with nstatus := .running } })
    (r := { r with nstatus := .running }) rfl rfl no_carry (hwf.procs_wf _ hmem) (List.getElem?_eq_getElem hk)
    (quiet _ hmem)

end Sys2Proof.Machine

namespace Sys2Proof.Machine

/-! ## Construction, which is reset (60_exceptions.md R176, 70_reset_and_hazards.md R201, R202) -/

/-- A Processor after construction with an image that loads and inputs that are cells is well-formed (R201). -/
theorem Processor.fresh_wf {cfg : Config} {image inputs : List Cell} (hv : cfg.Valid) (hi : imageLoads cfg image)
    (hin : ∀ v ∈ inputs, fitsW cfg v) : (Processor.fresh image inputs).WF cfg := by
  obtain ⟨hlen, hcells⟩ := hi
  obtain ⟨hw, -⟩ := hv
  have h0 : fitsW cfg 0 := (fitsW_bit (by omega)).1
  exact
    { cells := ⟨h0, Memory.load_fits hcells, hin, by simp [fresh], by simp [fresh]⟩
      ip_range := h0.2
      mem_wf := Memory.load_wf image
      mem_bound := Memory.load_bound hlen
      blocked_empty := by simp [fresh]
      blocked_input := by simp [fresh]
      fault_iff := by simp [fresh]
      outQ_depth := by simp [fresh] }

section Construction
variable {cfg : Config} {image inputs : List Cell} {phases : Vector Cell cfg.ringSize} {s : State}

theorem new_eq_ok (h : State.new cfg image inputs = .ok s) : imageLoads cfg image ∧ (∀ v ∈ inputs, fitsW cfg v) ∧
    s = { cfg := cfg, procs := [Processor.fresh image inputs], cursor := 0, ring := none, outcome := none } := by
  unfold State.new at h
  split_ifs at h with himage hcells
  cases h
  exact ⟨himage, hcells, rfl⟩

theorem newNetwork_eq_ok (h : State.newNetwork cfg image phases = .ok s) :
    imageLoads cfg image ∧ (∀ v ∈ phases.toList, fitsW cfg v) ∧
    s = { cfg := cfg, procs := phases.toList.map (fun v => Processor.fresh image [v]), cursor := 0,
          ring := some (Ring.fresh cfg), outcome := none } := by
  unfold State.newNetwork at h
  split_ifs at h with himage hN hcells
  cases h
  exact ⟨himage, hcells, rfl⟩

theorem new_wf (hv : cfg.Valid) (h : State.new cfg image inputs = .ok s) : s.WF ∧ s.RingConsistent := by
  obtain ⟨himage, hcells, rfl⟩ := new_eq_ok h
  refine ⟨?_, by rintro r ⟨⟩⟩
  exact
    { cfg_valid := hv
      cursor_lt := by simp
      count := rfl
      procs_wf := by simpa using Processor.fresh_wf hv himage hcells
      carry_fits := by rintro r ⟨⟩
      result_fits := by rintro r v ⟨⟩ }

theorem newNetwork_wf (hv : cfg.Valid) (h : State.newNetwork cfg image phases = .ok s) : s.WF ∧ s.RingConsistent := by
  obtain ⟨himage, hcells, rfl⟩ := newNetwork_eq_ok h
  have ⟨_, _, _, hN, hseed⟩ := hv
  have member : ∀ p ∈ phases.toList.map (fun v => Processor.fresh image [v]),
      ∃ v, fitsW cfg v ∧ p = Processor.fresh image [v] := by
    intro p hp
    obtain ⟨v, hmem, rfl⟩ := List.mem_map.1 hp
    exact ⟨v, hcells v hmem, rfl⟩
  refine ⟨?wf, ?consistent⟩
  case wf => exact
    { cfg_valid := hv
      cursor_lt := by simp; omega
      count := by simp
      procs_wf := by
        intro p hp
        obtain ⟨v, hfits, rfl⟩ := member p hp
        exact Processor.fresh_wf hv himage (by simpa using hfits)
      carry_fits := by
        rintro r ⟨⟩
        exact hseed
      result_fits := by rintro r v ⟨⟩ ⟨⟩ }
  case consistent =>
    rintro r ⟨⟩
    refine (Ring.consistent_of_running rfl).2 ⟨fun p hp => ?_, rfl, rfl, fun _ => by simp⟩
    obtain ⟨v, -, rfl⟩ := member p hp
    simp [Processor.fresh]

end Construction

/-- Settles O45: one mode after the other. -/
theorem constructionGivesWellFormedMachines : Obligations.ConstructionGivesWellFormedMachines := by
  rintro cfg image inputs phases s hv (h | h)
  · exact new_wf hv h
  · exact newNetwork_wf hv h

/-! ## Injecting and draining (60_exceptions.md R186, R187) -/

/-- Emptying OutQ keeps a Processor well-formed (R187). -/
theorem Processor.WF.drain {cfg : Config} {p : Processor} (h : p.WF cfg) : ({ p with outQ := [] } : Processor).WF cfg :=
  { h with
    cells := ⟨h.cells.rb, h.cells.mem, h.cells.inQ, by simp, h.cells.lastOutput⟩
    blocked_input := fun hb => by
      obtain ⟨w, d, hf, hd⟩ := h.blocked_input hb
      exact ⟨w, d, hf ▸ fetch_congr rfl rfl, hd⟩
    outQ_depth := by simp }

section Ports
variable {s s' : State} {p : Processor} {v : Cell}

/-- A value that is no value of a cell is turned away (log 23). -/
theorem injectInput_of_not_fits (hr : s.ring = none) (hc : s.current = some p) (hv : ¬ fitsW s.cfg v) :
    s.injectInput v = .error .notACell := by
  simp [State.injectInput, State.single_eq_ok.2 ⟨hr, hc⟩, hv]

theorem injectInput_of_full (hr : s.ring = none) (hc : s.current = some p) (hv : fitsW s.cfg v)
    (hq : queueFull s.cfg p.inQ = true) : s.injectInput v = .error .queueOverflow := by
  simp [State.injectInput, State.single_eq_ok.2 ⟨hr, hc⟩, hv, inject_eq_error.2 ⟨hq, rfl⟩]

/-- Only a value of a cell is injected. -/
theorem fits_of_injectInput (h : s.injectInput v = .ok s') : fitsW s.cfg v := by
  obtain ⟨p, -, hp, -⟩ := State.injectInput_eq_ok h
  obtain ⟨hr, hc⟩ := State.single_eq_ok.1 hp
  by_contra hv
  cases h.symm.trans (injectInput_of_not_fits hr hc hv)

end Ports

/-- Settles O48: each port keeps the Processor it acts on well-formed, and acts on no other. -/
theorem hostActionsKeepTheMachineWellFormed : Obligations.HostActionsKeepTheMachineWellFormed := by
  rintro s s' v out hwf (h | h)
  · obtain ⟨p, p', hp, hi, rfl⟩ := State.injectInput_eq_ok h
    have hp := hwf.procs_wf p (State.current_mem (State.single_eq_ok.1 hp).2)
    exact hwf.setCurrent (hp.inject (fits_of_injectInput h) hi)
  · obtain ⟨p, hp, -, rfl⟩ := State.drainOutput_eq_ok.1 h
    exact hwf.setCurrent (hwf.procs_wf p (State.current_mem (State.single_eq_ok.1 hp).2)).drain

/-- Settles O57: room and no room in InQ, and a value that is no value of a cell. -/
theorem injectPushesAndUnblocks : Obligations.InjectPushesAndUnblocks := by
  intro s p v hr hc
  refine ⟨fun hv => ⟨fun hroom => ⟨fun hb => ?_, fun hb => ?_⟩, fun d hd hfull => ?_⟩, injectInput_of_not_fits hr hc⟩
  · exact injectInput_of_inject hr hc hv (inject_eq_ok.2 ⟨queueFull_eq_false.2 hroom, by rw [if_pos hb]⟩)
  · exact injectInput_of_inject hr hc hv (inject_eq_ok.2 ⟨queueFull_eq_false.2 hroom, by rw [if_neg hb]⟩)
  · exact injectInput_of_full hr hc hv (queueFull_of_le hd hfull)

/-- Settles O58: the port acts on the Processor at the cursor. -/
theorem drainReturnsAndEmptiesOutQ : Obligations.DrainReturnsAndEmptiesOutQ :=
  fun _ p hr hc => State.drainOutput_eq_ok.2 ⟨p, State.single_eq_ok.2 ⟨hr, hc⟩, rfl, rfl⟩

end Sys2Proof.Machine

namespace Sys2Proof.Machine

/-! ## Every reset value (20_memory.md R54, 60_exceptions.md R176, 70_reset_and_hazards.md R201, R202) -/

/-- The image at its own addresses, 0 everywhere else (R54). -/
theorem Memory.read_load (image : List Cell) (a : Nat) : read (load image) a = image.getD a 0 := by
  rw [load, ← read_loadAt 0 a, Nat.zero_add]

theorem not_imageLoads {cfg : Config} {image : List Cell} :
    ¬ imageLoads cfg image ↔ cfg.memCapacity < image.length ∨ ∃ v ∈ image, ¬ fitsW cfg v := by
  simp only [imageLoads, not_and_or, not_le, not_forall, exists_prop]

section Reset
variable {cfg : Config} {image inputs : List Cell} {phases : Vector Cell cfg.ringSize}

theorem new_of_imageLoads (hi : imageLoads cfg image) (hin : ∀ v ∈ inputs, fitsW cfg v) : State.new cfg image inputs =
    .ok { cfg := cfg, procs := [Processor.fresh image inputs], cursor := 0, ring := none, outcome := none } := by
  rw [State.new, if_neg (not_not.2 hi), if_neg (not_not.2 hin)]

theorem new_of_not_imageLoads (hi : ¬ imageLoads cfg image) : State.new cfg image inputs = .error .imageError :=
  if_pos hi

theorem newNetwork_of_imageLoads (hi : imageLoads cfg image) (hN : cfg.ringSize ≠ 0)
    (hph : ∀ v ∈ phases.toList, fitsW cfg v) : State.newNetwork cfg image phases =
    .ok { cfg := cfg, procs := phases.toList.map (fun v => Processor.fresh image [v]), cursor := 0,
          ring := some (Ring.fresh cfg), outcome := none } := by
  rw [State.newNetwork, if_neg (not_not.2 hi), if_neg hN, if_neg (not_not.2 hph)]

theorem newNetwork_of_not_imageLoads (hi : ¬ imageLoads cfg image) :
    State.newNetwork cfg image phases = .error .imageError :=
  if_pos hi

theorem newNetwork_of_ringSize_zero (hi : imageLoads cfg image) (hN : cfg.ringSize = 0) :
    State.newNetwork cfg image phases = .error .noProcessors := by
  rw [State.newNetwork, if_neg (not_not.2 hi), if_pos hN]

/-- The Processor of the k-th phase. -/
theorem fresh_of_phase {k : Nat} (hk : k < cfg.ringSize) :
    (phases.toList.map (fun v => Processor.fresh image [v]))[k]? = some (Processor.fresh image [phases[k]]) := by
  simp [hk]

/-- The empty image leaves the word 0 at ip, and 0 is no instruction (R54, R82). -/
theorem step_of_empty_image {s : State} (hr : s.ring = none) (hc : s.current = some (Processor.fresh [] inputs))
    (hcap : 1 ≤ s.cfg.memCapacity) :
    ∃ s', step s = .next s' ∧ s'.outcome = some (.fault ⟨.invalidOpcode, some 0, some 0, 0, none⟩) := by
  have hword : decodeHeader 0 = .error .invalidOpcode := (negativeWordsAndZeroAreInvalid 0).2 le_rfl
  rw [step_single hr]
  exact stepCurrent_of_rejected hc (.inl rfl) hcap hword

end Reset

/-- Settles O10: the machine of an image that loads, read off field by field, and the image that does not load. -/
theorem constructionGivesTheResetValues : Obligations.ConstructionGivesTheResetValues := by
  intro cfg image inputs hin
  refine ⟨fun hlen hfits => ?_, fun h => new_of_not_imageLoads (not_imageLoads.2 h)⟩
  refine ⟨_, Processor.fresh image inputs, new_of_imageLoads ⟨hlen, hfits⟩ hin, rfl, rfl, rfl, rfl, rfl, rfl, rfl, rfl, rfl,
    rfl, rfl, fun a _ => Memory.read_load image a, fun a ha => ?beyond, ?empty⟩
  case beyond => exact (Memory.read_load image a).trans (List.getD_eq_default _ _ ha)
  case empty =>
    rintro rfl hcap
    exact step_of_empty_image rfl rfl hcap

/-- Settles O11: an image that loads with N at least 1, one that does not load, and N = 0, where ImageError comes first. -/
theorem networkConstructionGivesTheResetValues : Obligations.NetworkConstructionGivesTheResetValues := by
  intro cfg image phases hph
  refine ⟨fun hlen hfits hN => ?machine, fun _ h => newNetwork_of_not_imageLoads (not_imageLoads.2 h), fun hN =>
    ⟨?refused, fun hlen hfits => newNetwork_of_ringSize_zero ⟨hlen, hfits⟩ hN⟩⟩
  case machine =>
    refine ⟨_, newNetwork_of_imageLoads ⟨hlen, hfits⟩ (by omega) hph, rfl, rfl, by simp,
      ⟨Ring.fresh cfg, rfl, rfl, rfl, rfl, rfl, rfl⟩, fun k hk => ?_⟩
    exact ⟨_, fresh_of_phase hk, rfl, rfl, rfl, rfl, rfl, rfl, rfl, Memory.read_load image⟩
  case refused =>
    by_cases hi : imageLoads cfg image
    · exact ⟨_, newNetwork_of_ringSize_zero hi hN⟩
    · exact ⟨_, newNetwork_of_not_imageLoads hi⟩

/-- The reset machine is what construction gives for this hardware, the empty image and no inputs (log 5). -/
theorem new_hardware_eq_reset : State.new Config.hardware [] [] = .ok State.reset :=
  new_of_imageLoads ⟨Nat.zero_le _, by simp⟩ (by simp)

/-- Settles O44: reset is a construction, and this hardware's parameters are legal (R6). -/
theorem resetIsWellFormed : Obligations.ResetIsWellFormed :=
  new_wf (by decide) new_hardware_eq_reset

end Sys2Proof.Machine
